-- ==== Sys2Proof/Word.lean ====
section
/-! DEFINITION. The two word types of the RTU block (00_scope.md R21): a byte is an unsigned 8-bit value, a `u16` an
unsigned 16-bit value. Counts, lengths and indices are natural numbers (R21: arithmetic is on unbounded naturals). -/

namespace Sys2Proof

/-- A byte of the wire or of a packed field (R21). -/
abbrev Byte := BitVec 8

/-- A 16-bit field, register or CRC value (R21). -/
abbrev U16 := BitVec 16

end Sys2Proof
end

