-- ==== Sys2Proof/Config.lean ====
section
/-! DEFINITION. The configuration record `cfg` of 00_scope.md R9-R19: what is fixed from reset on. The state carries one
(10_state.md R46 makes six of its fields the registers CFG0..CFG5), so that a statement about every state is a statement
about every configuration (log 1). The spec leaves no value free, so there is no opaque constant here. -/

namespace Sys2Proof

/-- R13: what the Modbus coil value ON does to a lock. -/
inductive CoilOnMeans where
  /-- The default: 0xFF00 opens. -/
  | opens
  /-- The alternate convention: 0xFF00 closes. -/
  | closes
deriving DecidableEq, Repr

/-- R14: how a request bit of Write Multiple Coils maps onto a coil. -/
inductive MultiCoilMode where
  /-- The default: a bit 1 acts as the value 0xFF00 of Write Single Coil. -/
  | asSingle
  /-- A bit 1 closes the lock. -/
  | direct
deriving DecidableEq, Repr

/-- The configuration record (00_scope.md R9-R19). -/
structure Cfg where
  /-- BAUD, CFG0 (R9). -/
  baud : Nat
  /-- N_DEV, CFG1 (R10). -/
  nDev : Nat
  /-- BASE_ADDR, CFG2 (R11). -/
  baseAddr : Nat
  /-- COMPAT_READ_TO_END, CFG3 (R12). -/
  compatReadToEnd : Bool
  /-- COIL_ON_MEANS, CFG4 (R13). -/
  coilOnMeans : CoilOnMeans
  /-- MULTI_COIL_MODE, CFG5 (R14). -/
  multiCoilMode : MultiCoilMode
  /-- GAP_FLOOR_NS (R16). -/
  gapFloorNs : Nat
  /-- GAP_CHARS_X2 (R16). -/
  gapCharsX2 : Nat
  /-- CHAR_BITS (R16, 90_conflicts.md C1). -/
  charBits : Nat
  /-- TURNAROUND_NS (R17): a host duty; no rule of the state reads it. -/
  turnaroundNs : Nat
  /-- CNT_WIDTH (R19). -/
  cntWidth : Nat
deriving DecidableEq, Repr

/-- R20, R382: `BAUD > 0`, `1 <= N_DEV <= 10`, `BASE_ADDR + N_DEV - 1 <= 255`. -/
abbrev Cfg.Valid (c : Cfg) : Prop :=
  0 < c.baud ∧ 1 ≤ c.nDev ∧ c.nDev ≤ 10 ∧ c.baseAddr + c.nDev - 1 ≤ 255

/-- The configuration `State.reset` has. The defaults are R11-R19's; R9 and R10 give BAUD and N_DEV no default, and
9600 and 1 are the values the spec's own examples run with (95_test_vectors.md; DESIGN CHOICE, log 1). -/
def Cfg.default : Cfg where
  baud := 9600
  nDev := 1
  baseAddr := 1
  compatReadToEnd := false
  coilOnMeans := .opens
  multiCoilMode := .asSingle
  gapFloorNs := 1500000
  gapCharsX2 := 7
  charBits := 11
  turnaroundNs := 2000000
  cntWidth := 32

/-- MAX_BUF, the capacity in bytes of the synchronizer's buffer (R15; a constant of the model, log 9). -/
def maxBuf : Nat := 4096

end Sys2Proof
end

