-- ==== Sys2Proof/Machine/Bytes.lean ====
section
/-! DEFINITION. Byte order and bit order (20_memory.md R75-R77, 43_functions.md R242): how 16-bit fields and packed
runs of bits lie in bytes. -/

namespace Sys2Proof

/-- The higher-order byte of a 16-bit value, `v / 256` (R75, R109). -/
def hiByte (v : U16) : Byte := v.extractLsb' 8 8

/-- The lower-order byte of a 16-bit value, `v mod 256` (R75, R76). -/
def loByte (v : U16) : Byte := v.extractLsb' 0 8

/-- `be16(hi, lo) = hi * 256 + lo` (00_scope.md R22). -/
def be16 (hi lo : Byte) : U16 := hi ++ lo

/-- `le16(lo, hi) = hi * 256 + lo` (00_scope.md R22). -/
def le16 (lo hi : Byte) : U16 := hi ++ lo

/-- The byte whose bit `t` is `f t` (R77: bit 0 is the least significant bit). -/
def byteOfBits (f : Nat → Bool) : Byte :=
  (List.range 8).foldl (fun acc t => if f t then acc ||| (1#8 <<< t) else acc) 0#8

/-- `ceil(n / 8)`, the bytes a run of `n` bits takes (R108, R242). -/
def packedLength (n : Nat) : Nat := (n + 7) / 8

/-- `pack_bits` (43_functions.md R242): bit `j` of the run is bit `j mod 8` of byte `j / 8`, unused high bits are 0. -/
def packBits (v : List Bool) : List Byte :=
  (List.range (packedLength v.length)).map fun n => byteOfBits fun t => v.getD (8 * n + t) false

/-- `unpack_bit` (43_functions.md R242). -/
def unpackBit (bytes : List Byte) (j : Nat) : Bool := (bytes.getD (j / 8) 0#8).getLsbD (j % 8)

/-- The big-endian bytes of a run of registers (30_encoding.md R109). -/
def packRegs (v : List U16) : List Byte := v.flatMap fun r => [hiByte r, loByte r]

end Sys2Proof
end

