-- ==== Sys2Proof/Machine/Crc.lean ====
section
/-! DEFINITION. The CRC engine (40_crc.md R140-R143): three pure functions and the byte-serial update they rest on. -/

namespace Sys2Proof

/-- One of the eight shifts of `crc_step` (40_crc.md R141). -/
def crcShift (c : U16) : U16 := if c.getLsbD 0 then (c >>> 1) ^^^ 0xA001#16 else c >>> 1

/-- `crc_step` (40_crc.md R141). -/
def crcStep (c : U16) (b : Byte) : U16 := crcShift^[8] (c ^^^ b.zeroExtend 16)

/-- `crc16` (40_crc.md R140): initial value 0xFFFF, no final xor. -/
def crc16 (d : List Byte) : U16 := d.foldl crcStep 0xFFFF#16

/-- `append_crc` (40_crc.md R142): the CRC is appended low byte first. -/
def appendCrc (d : List Byte) : List Byte := d ++ [loByte (crc16 d), hiByte (crc16 d)]

/-- `verify` (40_crc.md R143): false below 4 bytes, else the trailing two bytes against the CRC of what precedes. -/
def verify (frame : List Byte) : Bool :=
  if frame.length < 4 then false
  else le16 (frame.getD (frame.length - 2) 0#8) (frame.getD (frame.length - 1) 0#8) ==
    crc16 (frame.take (frame.length - 2))

end Sys2Proof
end

