-- ==== Sys2Proof/Syntax.lean ====
section
/-! DEFINITION. The instructions of the RTU block: Modbus request frames, one constructor per row of
spec/opcode_table.json (30_encoding.md R112). An instruction is a frame without its CRC, its fields pulled out once:
the CRC is a function of the rest (R100), so it is no operand. Each format has a second shape for a body of the wrong
length, which the spec answers with exception 0x04 (R104-R106). -/

namespace Sys2Proof

/-- Operands of format RD (30_encoding.md R104). -/
inductive ReadArgs where
  /-- A body of exactly 6 bytes. -/
  | fields (start count : U16)
  /-- Any other body; `payload` is what follows the function byte. -/
  | malformed (payload : List Byte)
deriving DecidableEq, Repr

/-- Operands of format WS (30_encoding.md R105). -/
inductive WriteArgs where
  /-- A body of exactly 6 bytes. -/
  | fields (addr value : U16)
  /-- Any other body; `payload` is what follows the function byte. -/
  | malformed (payload : List Byte)
deriving DecidableEq, Repr

/-- Operands of format WM (30_encoding.md R106). -/
inductive MultiArgs where
  /-- A body of `7 + byteCount` bytes. -/
  | fields (start count : U16) (byteCount : Byte) (values : List Byte)
  /-- Any other body; `payload` is what follows the function byte. -/
  | malformed (payload : List Byte)
deriving DecidableEq, Repr

/-- A request: `a` is the address byte, frame byte 0 (30_encoding.md R100, R112). -/
inductive Instr where
  /-- Function 0x01, READ_COILS (43_functions.md R240). -/
  | readCoils (a : Byte) (args : ReadArgs)
  /-- Function 0x02, READ_DISCRETE_INPUTS (R250). -/
  | readDiscreteInputs (a : Byte) (args : ReadArgs)
  /-- Function 0x03, READ_HOLDING_REGISTERS (R254). -/
  | readHoldingRegisters (a : Byte) (args : ReadArgs)
  /-- Function 0x04, READ_INPUT_REGISTERS (R257). -/
  | readInputRegisters (a : Byte) (args : ReadArgs)
  /-- Function 0x05, WRITE_SINGLE_COIL (R260). -/
  | writeSingleCoil (a : Byte) (args : WriteArgs)
  /-- Function 0x06, WRITE_SINGLE_REGISTER (R270). -/
  | writeSingleRegister (a : Byte) (args : WriteArgs)
  /-- Function 0x0F, WRITE_MULTIPLE_COILS (R280). -/
  | writeMultipleCoils (a : Byte) (args : MultiArgs)
  /-- Function 0x10, WRITE_MULTIPLE_REGISTERS (R290). -/
  | writeMultipleRegisters (a : Byte) (args : MultiArgs)
  /-- Any other function byte `fc`, ILLEGAL_FUNCTION (R295); the payload is not decoded (R107). -/
  | illegalFunction (a fc : Byte) (payload : List Byte)
deriving DecidableEq, Repr

end Sys2Proof
end

