-- ==== Sys2Proof/WellFormed.lean ====
section
/-! DEFINITION. Which instructions stand for a frame: the shape of the operands agrees with the body length the format
requires (30_encoding.md R104-R106), and ILLEGAL_FUNCTION holds none of the eight supported function bytes (R112, R114).
No bound on the payload's length is checked, as R102 says of requests. -/

namespace Sys2Proof

/-- The eight function bytes of 30_encoding.md R112, in the order of `fidx`. -/
def supportedFunctions : List Byte := [0x01#8, 0x02#8, 0x03#8, 0x04#8, 0x05#8, 0x06#8, 0x0F#8, 0x10#8]

/-- R104: a body of 6 bytes is never malformed. -/
def ReadArgs.wf : ReadArgs → Bool
  | .fields _ _ => true
  | .malformed p => p.length != 4

/-- R105: a body of 6 bytes is never malformed. -/
def WriteArgs.wf : WriteArgs → Bool
  | .fields _ _ => true
  | .malformed p => p.length != 4

/-- R106: the values are `byteCount` bytes; a malformed body is shorter than 7 bytes or its length is not
`7 + byte_count`, the byte count being payload byte 4 (body byte 6). -/
def MultiArgs.wf : MultiArgs → Bool
  | .fields _ _ byteCount values => values.length == byteCount.toNat
  | .malformed p => p.length < 5 || p.length != 5 + (p.getD 4 0).toNat

/-- The instruction is the reading of some frame. -/
def Instr.wf : Instr → Bool
  | .readCoils _ x => x.wf
  | .readDiscreteInputs _ x => x.wf
  | .readHoldingRegisters _ x => x.wf
  | .readInputRegisters _ x => x.wf
  | .writeSingleCoil _ x => x.wf
  | .writeSingleRegister _ x => x.wf
  | .writeMultipleCoils _ x => x.wf
  | .writeMultipleRegisters _ x => x.wf
  | .illegalFunction _ fc _ => !supportedFunctions.contains fc

end Sys2Proof
end

