-- ==== Sys2Proof/Decode.lean ====
section
/-! DEFINITION. Reading a frame and writing one (30_encoding.md). `decode` is total on any bytes and rejects by name:
a CRC-valid frame always decodes (R117). `encode` is written from the format tables R104-R107. `fetch` reads the front
of a buffer: frames carry no length, so it takes the shortest prefix that decodes (R116). -/

namespace Sys2Proof

/-- Why a byte sequence is no frame (R100, R101). -/
inductive DecodeError where
  /-- Fewer than 4 bytes (R100). -/
  | tooShort
  /-- The last two bytes are not the CRC of the rest (R101). -/
  | crcMismatch
deriving DecidableEq, Repr

/-- Format RD (R104): exactly four bytes after the function byte. -/
def decodeRead (payload : List Byte) : ReadArgs :=
  match payload with
  | [s1, s0, c1, c0] => .fields (be16 s1 s0) (be16 c1 c0)
  | _ => .malformed payload

/-- Format WS (R105): exactly four bytes after the function byte. -/
def decodeWrite (payload : List Byte) : WriteArgs :=
  match payload with
  | [a1, a0, v1, v0] => .fields (be16 a1 a0) (be16 v1 v0)
  | _ => .malformed payload

/-- Format WM (R106): start, count, byte count, then exactly byte-count value bytes. -/
def decodeMulti (payload : List Byte) : MultiArgs :=
  match payload with
  | s1 :: s0 :: c1 :: c0 :: bc :: values =>
    if values.length = bc.toNat then .fields (be16 s1 s0) (be16 c1 c0) bc values else .malformed payload
  | _ => .malformed payload

/-- The function-code map (R112, R114). -/
def decodeRequest (a fc : Byte) (payload : List Byte) : Instr :=
  if fc = 0x01#8 then .readCoils a (decodeRead payload)
  else if fc = 0x02#8 then .readDiscreteInputs a (decodeRead payload)
  else if fc = 0x03#8 then .readHoldingRegisters a (decodeRead payload)
  else if fc = 0x04#8 then .readInputRegisters a (decodeRead payload)
  else if fc = 0x05#8 then .writeSingleCoil a (decodeWrite payload)
  else if fc = 0x06#8 then .writeSingleRegister a (decodeWrite payload)
  else if fc = 0x0F#8 then .writeMultipleCoils a (decodeMulti payload)
  else if fc = 0x10#8 then .writeMultipleRegisters a (decodeMulti payload)
  else .illegalFunction a fc payload

/-- One frame (R100, R101, R117): the CRC is checked before anything in the frame is read (60_exceptions.md R351). -/
def decode (frame : List Byte) : Except DecodeError Instr :=
  if verify frame then
    match frame.take (frame.length - 2) with
    | a :: fc :: payload => .ok (decodeRequest a fc payload)
    | _ => .error .tooShort
  else if frame.length < 4 then .error .tooShort
  else .error .crcMismatch

/-- The first instruction of a buffer and what follows it: the shortest prefix of length at least 4 that is a frame
(41_synchronizer.md R175, R176; 30_encoding.md R116), or none. -/
def fetch (buf : List Byte) : Option (Instr × List Byte) :=
  (List.range' 4 (buf.length - 3)).findSome? fun l =>
    match decode (buf.take l) with
    | .ok i => some (i, buf.drop l)
    | .error _ => none

/-- Frame byte 0 (R100). -/
def Instr.address : Instr → Byte
  | .readCoils a _ => a
  | .readDiscreteInputs a _ => a
  | .readHoldingRegisters a _ => a
  | .readInputRegisters a _ => a
  | .writeSingleCoil a _ => a
  | .writeSingleRegister a _ => a
  | .writeMultipleCoils a _ => a
  | .writeMultipleRegisters a _ => a
  | .illegalFunction a _ _ => a

/-- Frame byte 1 (R100, R112). -/
def Instr.functionCode : Instr → Byte
  | .readCoils _ _ => 0x01#8
  | .readDiscreteInputs _ _ => 0x02#8
  | .readHoldingRegisters _ _ => 0x03#8
  | .readInputRegisters _ _ => 0x04#8
  | .writeSingleCoil _ _ => 0x05#8
  | .writeSingleRegister _ _ => 0x06#8
  | .writeMultipleCoils _ _ => 0x0F#8
  | .writeMultipleRegisters _ _ => 0x10#8
  | .illegalFunction _ fc _ => fc

/-- R104. -/
def encodeRead : ReadArgs → List Byte
  | .fields start count => [hiByte start, loByte start, hiByte count, loByte count]
  | .malformed payload => payload

/-- R105. -/
def encodeWrite : WriteArgs → List Byte
  | .fields addr value => [hiByte addr, loByte addr, hiByte value, loByte value]
  | .malformed payload => payload

/-- R106. -/
def encodeMulti : MultiArgs → List Byte
  | .fields start count byteCount values =>
    [hiByte start, loByte start, hiByte count, loByte count, byteCount] ++ values
  | .malformed payload => payload

/-- The bytes between the function byte and the CRC (R100, R101). -/
def Instr.payload : Instr → List Byte
  | .readCoils _ x => encodeRead x
  | .readDiscreteInputs _ x => encodeRead x
  | .readHoldingRegisters _ x => encodeRead x
  | .readInputRegisters _ x => encodeRead x
  | .writeSingleCoil _ x => encodeWrite x
  | .writeSingleRegister _ x => encodeWrite x
  | .writeMultipleCoils _ x => encodeMulti x
  | .writeMultipleRegisters _ x => encodeMulti x
  | .illegalFunction _ _ p => p

/-- The body of the instruction's frame (R101). -/
def encodeBody (i : Instr) : List Byte := i.address :: i.functionCode :: i.payload

/-- The instruction's frame on the wire (R100). -/
def encode (i : Instr) : List Byte := appendCrc (encodeBody i)

/-- The bytes of `w`, least significant first, as spec/opcode_table.json numbers them: its bit 0 is the least
significant bit of the function byte, the only byte the table gives a row (log 7). -/
def tableBytes (nbits w : Nat) : List Byte :=
  (List.range ((nbits + 7) / 8)).map fun j => BitVec.ofNat 8 (w / 256 ^ j)

/-- How many bytes a function's format needs after the function byte, given those the table fixes (R104-R107). -/
def payloadNeed (fc : Byte) (given : List Byte) : Nat :=
  if fc ∈ [0x01#8, 0x02#8, 0x03#8, 0x04#8, 0x05#8, 0x06#8] then 4
  else if fc ∈ [0x0F#8, 0x10#8] then 5 + (given.getD 4 0#8).toNat
  else 0

/-- The frame to device address `a` whose bytes from the function byte on are `w`, operand bytes above `nbits` zero,
with the CRC of it (log 7). -/
def tableFrame (a : Byte) (nbits w : Nat) : List Byte :=
  let fc := (tableBytes nbits w).headD 0#8
  let given := (tableBytes nbits w).drop 1
  appendCrc (a :: fc :: (given ++ List.replicate (payloadNeed fc given - given.length) 0#8))

/-- What the decoder reads from a row's bits (log 7); the address byte, which the table does not number, is
`Cfg.default`'s base address. -/
def decodeTableWord (nbits w : Nat) : Option Instr :=
  match decode (tableFrame (BitVec.ofNat 8 Cfg.default.baseAddr) nbits w) with
  | .ok i => some i
  | .error _ => none

end Sys2Proof
end

