-- ==== Sys2Proof/Machine/State.lean ====
section
/-! DEFINITION. The state of the RTU block as plain data (10_state.md R30-R47), what it takes in and hands out
(41_synchronizer.md R160, 44_statistics.md R320-R325), why a step can stop, and reset (10_state.md R50,
70_reset_and_hazards.md R380-R382). -/

namespace Sys2Proof.Machine

/-- The synchronizer's phase (R32). -/
inductive Phase where
  /-- The buffer is empty and no frame is pending. -/
  | idle
  /-- Bytes have been accumulated; the block waits for a silence of at least the frame gap. -/
  | receiving
  /-- A frame gap has been seen; one frame is extracted per step. -/
  | extracting
  /-- Stopped by the host; the wire is ignored. -/
  | stopped
deriving DecidableEq, Repr

/-- Error kinds (R45). `timeout` exists in the type only: nothing raises it (60_exceptions.md R343). -/
inductive ErrKind where
  | crc
  | framing
  | unsupported
  | timeout
deriving DecidableEq, Repr

/-- An error record (R45); timestamp and description are out of scope (00_scope.md R8). -/
structure ErrorRecord where
  kind : ErrKind
  raw : List Byte
  expected : Option U16
  offset : Option Nat
deriving DecidableEq, Repr

/-- The storage of one emulated device (R30, R36-R40). -/
structure Device where
  /-- 48 coils, true = closed / locked (R36). -/
  coil : Vector Bool 48
  /-- The status register, a bit-packed mirror of the coils (R37). -/
  status : Vector Byte 6
  /-- Holding registers (R38). -/
  hr : Vector U16 256
  /-- Input registers, written by nothing (R39). -/
  ir : Vector U16 256
  /-- Discrete inputs, written by nothing (R40). -/
  di : Vector Bool 256
deriving DecidableEq, Repr

/-- A device after reset (R50). -/
def Device.reset : Device where
  coil := Vector.replicate 48 true
  status := Vector.replicate 6 0xFF#8
  hr := Vector.replicate 256 0#16
  ir := Vector.replicate 256 0#16
  di := Vector.replicate 256 false

/-- The statistics counters (R42-R44). -/
structure Stats where
  totalRequests : Nat
  validRequests : Nat
  invalidRequests : Nat
  crcErrors : Nat
  framingErrors : Nat
  unsupportedFunctions : Nat
  bytesReceived : Nat
  bytesSent : Nat
  responsesSent : Nat
  locksOpened : Nat
  locksClosed : Nat
  /-- One counter per device slot (R43). -/
  perDevice : List Nat
  /-- One counter per supported function code, by `fidx` (R44). -/
  perFunction : Vector Nat 8
deriving DecidableEq, Repr

/-- Every counter zero, with `n` device slots (R50). -/
def Stats.zero (n : Nat) : Stats where
  totalRequests := 0
  validRequests := 0
  invalidRequests := 0
  crcErrors := 0
  framingErrors := 0
  unsupportedFunctions := 0
  bytesReceived := 0
  bytesSent := 0
  responsesSent := 0
  locksOpened := 0
  locksClosed := 0
  perDevice := List.replicate n 0
  perFunction := Vector.replicate 8 0

/-- The name of one counter (R42-R44). -/
inductive Counter where
  | totalRequests
  | validRequests
  | invalidRequests
  | crcErrors
  | framingErrors
  | unsupportedFunctions
  | bytesReceived
  | bytesSent
  | responsesSent
  | locksOpened
  | locksClosed
  | perDevice (k : Nat)
  | perFunction (j : Nat)
deriving DecidableEq, Repr

/-- The steps' inputs (41_synchronizer.md R160, R181). `extract` is the block's own step: in the queue of inputs it
says that the block's turn comes before the inputs behind it (log 2). -/
inductive Input where
  | rxByte (b : Byte)
  | silence (e : Nat)
  | extract
  | clearStats
  | snapshot
  | stop
  | reset
deriving DecidableEq, Repr

/-- The items of a step's output list (44_statistics.md R320-R325, 42_dispatch.md R221). -/
inductive Output where
  /-- `Tx(r)`: the host must write the bytes `r` to the wire (R221). -/
  | tx (r : List Byte)
  /-- R321. -/
  | frameReceived (raw : List Byte) (crcValid : Bool)
  /-- R322. -/
  | responseSent (raw : List Byte)
  /-- R323: the device's bus address, the coil index, the coil's new value. -/
  | lockStateChanged (deviceAddress lockIndex : Nat) (nowClosed : Bool)
  /-- R324. -/
  | errorOccurred (r : ErrorRecord)
  /-- R325. -/
  | statisticsSnapshot (stats : Stats) (ring : List ErrorRecord)
deriving DecidableEq, Repr

/-- The state of the block (R30), its configuration registers (R46), and the two queues by which the model takes its
inputs and hands out its outputs (logs 1, 2 and 3). -/
structure State where
  /-- R32. -/
  phase : Phase
  /-- The synchronizer's buffer, oldest byte first (R33). -/
  buf : List Byte
  /-- The device table (R35). -/
  dev : List Device
  /-- R42-R44. -/
  stats : Stats
  /-- The last error records, oldest first (R45). -/
  ring : List ErrorRecord
  /-- The configuration (00_scope.md R9-R19; CFG0..CFG5, R46). -/
  cfg : Cfg
  /-- The host inputs not yet taken, the next one first (log 2). -/
  inputs : List Input
  /-- Every output emitted, the oldest first (log 3). -/
  outputs : List Output
deriving DecidableEq, Repr

/-- Why the block could stop with a fault: there is no reason. No error stops it (60_exceptions.md R344, 30_encoding.md
R117), so the type has no constructor (log 10; safe: a fault the spec does not give cannot be raised). -/
inductive Fault where
deriving DecidableEq, Repr

/-- What the model refuses. -/
inductive Refusal where
  /-- Raised by `exec` for an instruction without a meaning; none is left. Safe. -/
  | notModelled (mnemonic : String)
  /-- Raised by the input `Reset` when the configuration breaks R9, R10 or R11: it has no initial state
  (00_scope.md R20, 70_reset_and_hazards.md R382). Safe. -/
  | invalidConfiguration
  /-- Raised by the observation of a configuration or statistics register number that is not assigned
  (10_state.md R47, 93_implementation_defined.md I7); no step raises it. Safe. -/
  | unassignedRegister (n : Nat)
deriving DecidableEq, Repr

/-- The state after reset under configuration `c` (R50). -/
def State.resetWith (c : Cfg) : State where
  phase := .idle
  buf := []
  dev := List.replicate c.nDev Device.reset
  stats := Stats.zero c.nDev
  ring := []
  cfg := c
  inputs := []
  outputs := []

/-- The machine right after reset (R50, R381), with the configuration of log 1. -/
def State.reset : State := State.resetWith Cfg.default

end Sys2Proof.Machine
end

