-- ==== Sys2Proof/Machine/Flags.lean ====
section
/-! DEFINITION. The block has no condition codes (10_state.md R48); what its steps account for are the saturating
counters and the error ring (44_statistics.md R301-R314). This file reads and moves them, and reads the numbered
configuration and statistics registers (10_state.md R46, R47). -/

namespace Sys2Proof.Machine

/-- The value of a counter. A per-device or per-function index that does not exist reads 0 (log 11). -/
def Stats.get (t : Stats) : Counter → Nat
  | .totalRequests => t.totalRequests
  | .validRequests => t.validRequests
  | .invalidRequests => t.invalidRequests
  | .crcErrors => t.crcErrors
  | .framingErrors => t.framingErrors
  | .unsupportedFunctions => t.unsupportedFunctions
  | .bytesReceived => t.bytesReceived
  | .bytesSent => t.bytesSent
  | .responsesSent => t.responsesSent
  | .locksOpened => t.locksOpened
  | .locksClosed => t.locksClosed
  | .perDevice k => t.perDevice.getD k 0
  | .perFunction j => t.perFunction[j]?.getD 0

/-- One counter replaced. An index that does not exist changes nothing (log 11). -/
def Stats.put (t : Stats) (c : Counter) (v : Nat) : Stats :=
  match c with
  | .totalRequests => { t with totalRequests := v }
  | .validRequests => { t with validRequests := v }
  | .invalidRequests => { t with invalidRequests := v }
  | .crcErrors => { t with crcErrors := v }
  | .framingErrors => { t with framingErrors := v }
  | .unsupportedFunctions => { t with unsupportedFunctions := v }
  | .bytesReceived => { t with bytesReceived := v }
  | .bytesSent => { t with bytesSent := v }
  | .responsesSent => { t with responsesSent := v }
  | .locksOpened => { t with locksOpened := v }
  | .locksClosed => { t with locksClosed := v }
  | .perDevice k => { t with perDevice := t.perDevice.set k v }
  | .perFunction j => { t with perFunction := t.perFunction.setIfInBounds j v }

/-- `sat(v) = min(v, 2^CNT_WIDTH - 1)` (R301). -/
def sat (cfg : Cfg) (v : Nat) : Nat := min v (2 ^ cfg.cntWidth - 1)

/-- The value of counter `c` in the state. -/
def stat (c : Counter) (s : State) : Nat := s.stats.get c

/-- `c <- sat(c + n)` (R301). -/
def addTo (c : Counter) (n : Nat) (s : State) : State :=
  { s with stats := s.stats.put c (sat s.cfg (s.stats.get c + n)) }

/-- `bump(c)` (R301). -/
def bump (c : Counter) (s : State) : State := addTo c 1 s

/-- `emit` and `transmit`: the item is appended to the output list (00_scope.md R23). -/
def emit (o : Output) (s : State) : State := { s with outputs := s.outputs ++ [o] }

/-- The ring after one more record: the oldest is evicted once 5 are held (R310, R312). -/
def pushRecord (ring : List ErrorRecord) (r : ErrorRecord) : List ErrorRecord :=
  if (ring ++ [r]).length > 5 then (ring ++ [r]).drop 1 else ring ++ [r]

/-- `record` (R312). -/
def record (kind : ErrKind) (raw : List Byte) (expected : Option U16) (offset : Option Nat) (s : State) : State :=
  let r : ErrorRecord := { kind := kind, raw := raw, expected := expected, offset := offset }
  emit (.errorOccurred r) { s with ring := pushRecord s.ring r }

/-- A configuration register, CFG0..CFG5 (R46); any other number is refused (I7). -/
def cfgRegister (n : Nat) (s : State) : Except Refusal Nat :=
  match n with
  | 0 => .ok s.cfg.baud
  | 1 => .ok s.cfg.nDev
  | 2 => .ok s.cfg.baseAddr
  | 3 => .ok (if s.cfg.compatReadToEnd then 1 else 0)
  | 4 => .ok (match s.cfg.coilOnMeans with | .opens => 0 | .closes => 1)
  | 5 => .ok (match s.cfg.multiCoilMode with | .asSingle => 0 | .direct => 1)
  | _ => .error (.unassignedRegister n)

/-- The counter a statistics register number names (R47), or none. -/
def statNumber (nDev n : Nat) : Option Counter :=
  match n with
  | 0 => some .totalRequests
  | 1 => some .validRequests
  | 2 => some .invalidRequests
  | 3 => some .crcErrors
  | 4 => some .framingErrors
  | 5 => some .unsupportedFunctions
  | 6 => some .bytesReceived
  | 7 => some .bytesSent
  | 8 => some .responsesSent
  | 9 => some .locksOpened
  | 10 => some .locksClosed
  | _ =>
    if 16 ≤ n ∧ n < 16 + nDev then some (.perDevice (n - 16))
    else if 32 ≤ n ∧ n < 40 then some (.perFunction (n - 32))
    else none

/-- A statistics register (R47); a number that is not assigned is refused (I7). -/
def statRegister (n : Nat) (s : State) : Except Refusal Nat :=
  match statNumber s.cfg.nDev n with
  | some c => .ok (stat c s)
  | none => .error (.unassignedRegister n)

end Sys2Proof.Machine
end

