-- ==== Sys2Proof/Machine/Operands.lean ====
section
/-! DEFINITION. What a function rule makes of its operands before any effect: the exception codes (60_exceptions.md
R341), the checks of each format in the order of 42_dispatch.md R206, and the polarity of coil values (43_functions.md
R262, R282). Sums are on natural numbers and do not wrap (00_scope.md R21). -/

namespace Sys2Proof.Machine

/-- The Modbus exceptions (R341). -/
inductive ExceptionCode where
  /-- 0x01. -/
  | illegalFunction
  /-- 0x02. -/
  | illegalAddress
  /-- 0x03. -/
  | illegalValue
  /-- 0x04. -/
  | deviceFailure
deriving DecidableEq, Repr

/-- The code sent on the wire (R341). -/
def exceptionByte : ExceptionCode → Byte
  | .illegalFunction => 0x01
  | .illegalAddress => 0x02
  | .illegalValue => 0x03
  | .deviceFailure => 0x04

/-- How many coils a device has (R18, R70). -/
def coilSpace : Nat := 48

/-- How many discrete inputs, holding registers and input registers a device has, each (R18, R70). -/
def registerSpace : Nat := 256

/-- The most registers a response can carry (R254, 42_dispatch.md R212). -/
def maxRegisters : Nat := 125

/-- The range check (R206 item 3). -/
def checkRange (space start count : Nat) : Except ExceptionCode (Nat × Nat) :=
  if start + count > space then .error .illegalAddress else .ok (start, count)

/-- Format RD over a data space: shape, then count, then range (R206; R250). -/
def checkRead (space : Nat) : ReadArgs → Except ExceptionCode (Nat × Nat)
  | .malformed _ => .error .deviceFailure
  | .fields start count =>
    if count = 0#16 then .error .illegalValue else checkRange space start.toNat count.toNat

/-- `read_to_end` (43_functions.md R243). -/
def readToEnd (start : Nat) : Except ExceptionCode (Nat × Nat) :=
  if start ≥ coilSpace then .error .illegalAddress else .ok (start, coilSpace - start)

/-- Read Coils' checks: as format RD over 48 coils, but a zero count reads to the end in compatibility mode
(R240, R243). -/
def checkReadCoils (cfg : Cfg) : ReadArgs → Except ExceptionCode (Nat × Nat)
  | .malformed payload => checkRead coilSpace (.malformed payload)
  | .fields start count =>
    if count = 0#16 ∧ cfg.compatReadToEnd then readToEnd start.toNat
    else checkRead coilSpace (.fields start count)

/-- The register reads' checks: format RD over 256 registers, then encodability (R254, R257, R206 item 4). -/
def checkReadRegisters (args : ReadArgs) : Except ExceptionCode (Nat × Nat) :=
  match checkRead registerSpace args with
  | .error e => .error e
  | .ok (start, count) => if count > maxRegisters then .error .deviceFailure else .ok (start, count)

/-- Write Single Coil's checks: shape, value, index (R260). The result is the coil and whether the value is ON. -/
def checkWriteCoil : WriteArgs → Except ExceptionCode (Nat × Bool)
  | .malformed _ => .error .deviceFailure
  | .fields addr value =>
    if value ≠ 0x0000#16 ∧ value ≠ 0xFF00#16 then .error .illegalValue
    else if addr.toNat ≥ coilSpace then .error .illegalAddress
    else .ok (addr.toNat, value == 0xFF00#16)

/-- Write Single Register's checks: shape, index (R270). -/
def checkWriteRegister : WriteArgs → Except ExceptionCode (Nat × U16)
  | .malformed _ => .error .deviceFailure
  | .fields addr value =>
    if addr.toNat ≥ registerSpace then .error .illegalAddress else .ok (addr.toNat, value)

/-- Format WM over a data space whose `count` cells need `need count` value bytes: shape, zero count, byte count,
range (R280, R290, R206). -/
def checkMulti (space : Nat) (need : Nat → Nat) : MultiArgs → Except ExceptionCode (Nat × Nat)
  | .malformed _ => .error .deviceFailure
  | .fields start count byteCount _ =>
    if count = 0#16 then .error .illegalValue
    else if byteCount.toNat ≠ need count.toNat then .error .illegalValue
    else checkRange space start.toNat count.toNat

/-- The value bytes of a Write Multiple request. -/
def multiValues : MultiArgs → List Byte
  | .malformed _ => []
  | .fields _ _ _ values => values

/-- Value register `j` of a Write Multiple Registers request, big-endian (R290). -/
def valueRegister (values : List Byte) (j : Nat) : U16 :=
  be16 (values.getD (2 * j) 0#8) (values.getD (2 * j + 1) 0#8)

/-- `closed_for_on` (43_functions.md R262). -/
def closedForOn (cfg : Cfg) (on : Bool) : Bool :=
  match cfg.coilOnMeans with
  | .opens => !on
  | .closes => on

/-- `coil_for_bit` (43_functions.md R282). -/
def coilForBit (cfg : Cfg) (bit : Bool) : Bool :=
  match cfg.multiCoilMode with
  | .asSingle => closedForOn cfg bit
  | .direct => bit

end Sys2Proof.Machine
end

