-- ==== Sys2Proof/Machine/Ops.lean ====
section
/-! DEFINITION. The named operations every function shares: the device table and its storage cells (00_scope.md R23),
one coil written and accounted for (43_functions.md R265), sending a response (42_dispatch.md R220), TAKING A MODBUS
EXCEPTION (60_exceptions.md R345), and the course of one request (42_dispatch.md R200). There is no return from an
exception (60_exceptions.md R347): the block goes on with its next step. -/

namespace Sys2Proof.Machine

/-- The device slot of a bus address, or none for a foreign address (42_dispatch.md R200-R202). -/
def slotOf (cfg : Cfg) (a : Byte) : Option Nat :=
  if cfg.baseAddr ≤ a.toNat ∧ a.toNat < cfg.baseAddr + cfg.nDev then some (a.toNat - cfg.baseAddr) else none

/-- Device slot `k` (R35). A slot the table does not have reads as a device after reset (log 11). -/
def device (k : Nat) (s : State) : Device := s.dev.getD k Device.reset

/-- Device slot `k` changed; a slot the table does not have changes nothing (log 11). -/
def setDevice (k : Nat) (d : Device) (s : State) : State := { s with dev := s.dev.set k d }

/-- `dev[k].coil[i]` (R36). -/
def coil (k i : Nat) (s : State) : Bool := (device k s).coil[i]?.getD true

/-- `dev[k].status[j]` (R37). -/
def statusByte (k j : Nat) (s : State) : Byte := (device k s).status[j]?.getD 0xFF#8

/-- `dev[k].hr[i]` (R38). -/
def holdingReg (k i : Nat) (s : State) : U16 := (device k s).hr[i]?.getD 0#16

/-- `dev[k].ir[i]` (R39). -/
def inputReg (k i : Nat) (s : State) : U16 := (device k s).ir[i]?.getD 0#16

/-- `dev[k].di[i]` (R40). -/
def discreteInput (k i : Nat) (s : State) : Bool := (device k s).di[i]?.getD false

/-- Byte `j` of the mirror of the coils: bit `t` is coil `8 * j + t` (43_functions.md R241). -/
def mirrorByte (k : Nat) (s : State) (j : Nat) : Byte := byteOfBits fun t => coil k (8 * j + t) s

/-- `resync_status` (43_functions.md R241). -/
def resyncStatus (k : Nat) (s : State) : State :=
  let m := mirrorByte k s
  setDevice k { device k s with status := #v[m 0, m 1, m 2, m 3, m 4, m 5] } s

/-- `status_bit` (43_functions.md R241). -/
def statusBit (k i : Nat) (s : State) : Bool := (statusByte k (i / 8) s).getLsbD (i % 8)

/-- `dev[k].hr[i] <- v` (00_scope.md R23). -/
def setHoldingReg (k i : Nat) (v : U16) (s : State) : State :=
  setDevice k { device k s with hr := (device k s).hr.setIfInBounds i v } s

/-- `dev[k].coil[i] <- v`, the cell alone (00_scope.md R23). -/
def setCoilCell (k i : Nat) (closed : Bool) (s : State) : State :=
  setDevice k { device k s with coil := (device k s).coil.setIfInBounds i closed } s

/-- `set_coil` (43_functions.md R265): the cell, and on a change the lock counter and the event. -/
def setCoil (k i : Nat) (closed : Bool) (s : State) : State :=
  let s₁ := setCoilCell k i closed s
  if coil k i s = closed then s₁
  else emit (.lockStateChanged (s.cfg.baseAddr + k) i closed)
    (bump (if closed then .locksClosed else .locksOpened) s₁)

/-- Coils `start .. start + count - 1` written in increasing index (43_functions.md R280). -/
def setCoils (k start count : Nat) (value : Nat → Bool) (s : State) : State :=
  (List.range count).foldl (fun s j => setCoil k (start + j) (value j) s) s

/-- Holding registers `start .. start + count - 1` written (43_functions.md R290). -/
def setHoldingRegs (k start count : Nat) (value : Nat → U16) (s : State) : State :=
  (List.range count).foldl (fun s j => setHoldingReg k (start + j) (value j) s) s

/-- `send` (42_dispatch.md R220). -/
def send (r : List Byte) (s : State) : State :=
  emit (.responseSent r) (addTo .bytesSent r.length (bump .responsesSent (emit (.tx r) s)))

/-- `exception_body` (42_dispatch.md R211). -/
def exceptionBody (a fc : Byte) (e : ExceptionCode) : List Byte := [a, fc ||| 0x80#8, exceptionByte e]

/-- Taking a Modbus exception (60_exceptions.md R345): the exception response is sent; nothing is saved, no mode and no
storage changes. -/
def takeException (a fc : Byte) (e : ExceptionCode) (s : State) : State :=
  send (appendCrc (exceptionBody a fc e)) s

/-- What a function rule answers (42_dispatch.md R203). An exception carries no state: it has no effect on storage
(R207, R345). -/
inductive Reply where
  /-- `Normal(rbody)`, with the state after the rule's effects. -/
  | normal (s : State) (rbody : List Byte)
  /-- `Exception(code)`. -/
  | exception (e : ExceptionCode)

/-- The first lines of `process` (42_dispatch.md R200): the event and `total_requests`. -/
def receiveFrame (i : Instr) (s : State) : State :=
  bump .totalRequests (emit (.frameReceived (encode i) true) s)

/-- The counters of a dispatched request (42_dispatch.md R200, 44_statistics.md R306). -/
def countDispatched (k fidx : Nat) (s : State) : State :=
  bump (.perFunction fidx) (bump (.perDevice k) (bump .validRequests s))

/-- The response of a function rule (42_dispatch.md R200, R210, R211). -/
def answer (i : Instr) (reply : Reply) (s : State) : State :=
  match reply with
  | .normal t rbody => send (appendCrc rbody) t
  | .exception e => takeException i.address i.functionCode e s

/-- `process` for a supported function (42_dispatch.md R200): a foreign address is silent (R201), else the function's
`rule` runs against the slot and its reply is sent. `fidx` is the function's index (30_encoding.md R112). -/
def serve (i : Instr) (fidx : Nat) (rule : Nat → State → Reply) (s : State) : State :=
  match slotOf s.cfg i.address with
  | none => receiveFrame i s
  | some k => answer i (rule k (countDispatched k fidx (receiveFrame i s))) (countDispatched k fidx (receiveFrame i s))

/-- `process` for an unsupported function (42_dispatch.md R200, R201; 43_functions.md R295). -/
def serveIllegal (i : Instr) (s : State) : State :=
  match slotOf s.cfg i.address with
  | none => receiveFrame i s
  | some _ =>
    takeException i.address i.functionCode .illegalFunction
      (record .unsupported (encode i) none (some 1)
        (bump .invalidRequests (bump .unsupportedFunctions (receiveFrame i s))))

end Sys2Proof.Machine
end

