-- ==== Sys2Proof/Machine/Illegal.lean ====
section
/-! DEFINITION. Every other function byte (43_functions.md R295). -/

namespace Sys2Proof.Machine

/-- The meaning of ILLEGAL_FUNCTION (R200, R295): counted, recorded, answered with exception 0x01. -/
def execIllegalFunction (a fc : Byte) (payload : List Byte) (s : State) : Host.Outcome State Fault Refusal :=
  .next (serveIllegal (.illegalFunction a fc payload) s)

end Sys2Proof.Machine
end

