-- ==== Sys2Proof/Machine/MultipleWrites.lean ====
section
/-! DEFINITION. The multiple writes 0x0F and 0x10 (43_functions.md R280, R290); each answers with the first six bytes of
its request's body (30_encoding.md R111). -/

namespace Sys2Proof.Machine

/-- WRITE_MULTIPLE_COILS (R280). -/
def writeMultipleCoils (a : Byte) (args : MultiArgs) (k : Nat) (s : State) : Reply :=
  match checkMulti coilSpace packedLength args with
  | .error e => .exception e
  | .ok (start, count) =>
    .normal (setCoils k start count (fun j => coilForBit s.cfg (unpackBit (multiValues args) j)) s)
      ((encodeBody (.writeMultipleCoils a args)).take 6)

/-- WRITE_MULTIPLE_REGISTERS (R290). -/
def writeMultipleRegisters (a : Byte) (args : MultiArgs) (k : Nat) (s : State) : Reply :=
  match checkMulti registerSpace (fun count => 2 * count) args with
  | .error e => .exception e
  | .ok (start, count) =>
    .normal (setHoldingRegs k start count (valueRegister (multiValues args)) s)
      ((encodeBody (.writeMultipleRegisters a args)).take 6)

/-- The meaning of WRITE_MULTIPLE_COILS (R200, R280). -/
def execWriteMultipleCoils (a : Byte) (args : MultiArgs) (s : State) : Host.Outcome State Fault Refusal :=
  .next (serve (.writeMultipleCoils a args) 6 (writeMultipleCoils a args) s)

/-- The meaning of WRITE_MULTIPLE_REGISTERS (R200, R290). -/
def execWriteMultipleRegisters (a : Byte) (args : MultiArgs) (s : State) : Host.Outcome State Fault Refusal :=
  .next (serve (.writeMultipleRegisters a args) 7 (writeMultipleRegisters a args) s)

end Sys2Proof.Machine
end

