-- ==== Sys2Proof/Machine/Reads.lean ====
section
/-! DEFINITION. The read functions 0x01 to 0x04 (43_functions.md R240-R257). -/

namespace Sys2Proof.Machine

/-- A bit read response (30_encoding.md R108). -/
def bitReply (a fc : Byte) (bits : List Bool) : List Byte :=
  [a, fc, BitVec.ofNat 8 (packedLength bits.length)] ++ packBits bits

/-- A register read response (30_encoding.md R109). -/
def registerReply (a fc : Byte) (regs : List U16) : List Byte :=
  [a, fc, BitVec.ofNat 8 (2 * regs.length)] ++ packRegs regs

/-- READ_COILS (R240): the mirror is resynchronised, then read. -/
def readCoils (a : Byte) (args : ReadArgs) (k : Nat) (s : State) : Reply :=
  match checkReadCoils s.cfg args with
  | .error e => .exception e
  | .ok (start, count) =>
    .normal (resyncStatus k s)
      (bitReply a 0x01#8 ((List.range count).map fun j => statusBit k (start + j) (resyncStatus k s)))

/-- READ_DISCRETE_INPUTS (R250). -/
def readDiscreteInputs (a : Byte) (args : ReadArgs) (k : Nat) (s : State) : Reply :=
  match checkRead registerSpace args with
  | .error e => .exception e
  | .ok (start, count) =>
    .normal s (bitReply a 0x02#8 ((List.range count).map fun j => discreteInput k (start + j) s))

/-- READ_HOLDING_REGISTERS (R254). -/
def readHoldingRegisters (a : Byte) (args : ReadArgs) (k : Nat) (s : State) : Reply :=
  match checkReadRegisters args with
  | .error e => .exception e
  | .ok (start, count) =>
    .normal s (registerReply a 0x03#8 ((List.range count).map fun j => holdingReg k (start + j) s))

/-- READ_INPUT_REGISTERS (R257). -/
def readInputRegisters (a : Byte) (args : ReadArgs) (k : Nat) (s : State) : Reply :=
  match checkReadRegisters args with
  | .error e => .exception e
  | .ok (start, count) =>
    .normal s (registerReply a 0x04#8 ((List.range count).map fun j => inputReg k (start + j) s))

/-- The meaning of READ_COILS (R200, R240). -/
def execReadCoils (a : Byte) (args : ReadArgs) (s : State) : Host.Outcome State Fault Refusal :=
  .next (serve (.readCoils a args) 0 (readCoils a args) s)

/-- The meaning of READ_DISCRETE_INPUTS (R200, R250). -/
def execReadDiscreteInputs (a : Byte) (args : ReadArgs) (s : State) : Host.Outcome State Fault Refusal :=
  .next (serve (.readDiscreteInputs a args) 1 (readDiscreteInputs a args) s)

/-- The meaning of READ_HOLDING_REGISTERS (R200, R254). -/
def execReadHoldingRegisters (a : Byte) (args : ReadArgs) (s : State) : Host.Outcome State Fault Refusal :=
  .next (serve (.readHoldingRegisters a args) 2 (readHoldingRegisters a args) s)

/-- The meaning of READ_INPUT_REGISTERS (R200, R257). -/
def execReadInputRegisters (a : Byte) (args : ReadArgs) (s : State) : Host.Outcome State Fault Refusal :=
  .next (serve (.readInputRegisters a args) 3 (readInputRegisters a args) s)

end Sys2Proof.Machine
end

