-- ==== Sys2Proof/Machine/SingleWrites.lean ====
section
/-! DEFINITION. The single writes 0x05 and 0x06 (43_functions.md R260, R270); each answers with the echo of its request
(30_encoding.md R110). -/

namespace Sys2Proof.Machine

/-- WRITE_SINGLE_COIL (R260). -/
def writeSingleCoil (a : Byte) (args : WriteArgs) (k : Nat) (s : State) : Reply :=
  match checkWriteCoil args with
  | .error e => .exception e
  | .ok (i, on) => .normal (setCoil k i (closedForOn s.cfg on) s) (encodeBody (.writeSingleCoil a args))

/-- WRITE_SINGLE_REGISTER (R270). -/
def writeSingleRegister (a : Byte) (args : WriteArgs) (k : Nat) (s : State) : Reply :=
  match checkWriteRegister args with
  | .error e => .exception e
  | .ok (i, v) => .normal (setHoldingReg k i v s) (encodeBody (.writeSingleRegister a args))

/-- The meaning of WRITE_SINGLE_COIL (R200, R260). -/
def execWriteSingleCoil (a : Byte) (args : WriteArgs) (s : State) : Host.Outcome State Fault Refusal :=
  .next (serve (.writeSingleCoil a args) 4 (writeSingleCoil a args) s)

/-- The meaning of WRITE_SINGLE_REGISTER (R200, R270). -/
def execWriteSingleRegister (a : Byte) (args : WriteArgs) (s : State) : Host.Outcome State Fault Refusal :=
  .next (serve (.writeSingleRegister a args) 5 (writeSingleRegister a args) s)

end Sys2Proof.Machine
end

