-- ==== Sys2Proof/Machine/Dispatch.lean ====
section
/-! DEFINITION. One arm per instruction (30_encoding.md R112). -/

namespace Sys2Proof.Machine

def exec (i : Instr) (s : State) : Host.Outcome State Fault Refusal :=
  match i with
  | .readCoils a args => Sys2Proof.Machine.execReadCoils a args s
  | .readDiscreteInputs a args => Sys2Proof.Machine.execReadDiscreteInputs a args s
  | .readHoldingRegisters a args => Sys2Proof.Machine.execReadHoldingRegisters a args s
  | .readInputRegisters a args => Sys2Proof.Machine.execReadInputRegisters a args s
  | .writeSingleCoil a args => Sys2Proof.Machine.execWriteSingleCoil a args s
  | .writeSingleRegister a args => Sys2Proof.Machine.execWriteSingleRegister a args s
  | .writeMultipleCoils a args => Sys2Proof.Machine.execWriteMultipleCoils a args s
  | .writeMultipleRegisters a args => Sys2Proof.Machine.execWriteMultipleRegisters a args s
  | .illegalFunction a fc payload => Sys2Proof.Machine.execIllegalFunction a fc payload s

end Sys2Proof.Machine
end

