-- ==== Sys2Proof/Machine/Synchronizer.lean ====
section
/-! DEFINITION. The frame synchronizer and the inter-frame-gap detector (41_synchronizer.md): byte arrival, silence,
the removal of an extracted frame, the discarded remainder. -/

namespace Sys2Proof.Machine

/-- `RxByte(b)` at a full buffer (R164): the buffer and the byte are discarded as one Framing error, without a scan
(60_exceptions.md R351). -/
def overflow (s : State) : State :=
  record .framing s.buf none none
    (bump .framingErrors (bump .invalidRequests (bump .totalRequests
      { bump .bytesReceived s with buf := [], phase := .idle })))

/-- `RxByte(b)` (R162-R166). In phase Extracting the byte is held and no state changes here (R165). -/
def receiveByte (b : Byte) (s : State) : State :=
  match s.phase with
  | .idle => { bump .bytesReceived s with buf := [b], phase := .receiving }
  | .receiving =>
    if s.buf.length < maxBuf then { bump .bytesReceived s with buf := s.buf ++ [b] } else overflow s
  | .extracting => s
  | .stopped => s

/-- `gap_reached(e)` (R170), in integers, inclusive. -/
def gapReached (cfg : Cfg) (e : Nat) : Bool :=
  cfg.gapFloorNs ≤ e && cfg.gapCharsX2 * cfg.charBits * 1000000000 ≤ 2 * e * cfg.baud

/-- `Silence(e)` (R171, R172). -/
def silence (e : Nat) (s : State) : State :=
  if s.phase = .receiving ∧ gapReached s.cfg e then { s with phase := .extracting } else s

/-- An extracted frame leaves the front of the buffer and `rest` remains (R175). The phase is settled with it: the
request that is processed next neither reads nor writes it (log 5). -/
def dropFrame (rest : List Byte) (s : State) : State :=
  { s with buf := rest, phase := if rest = [] then .idle else .extracting }

/-- The error record and the counter of a remainder (R177). -/
def recordRemainder (rem : List Byte) (s : State) : State :=
  if rem.length < 4 then record .framing rem none none (bump .framingErrors s)
  else record .crc rem (some (crc16 (rem.take (rem.length - 2)))) (some (rem.length - 2)) (bump .crcErrors s)

/-- `discard_remainder()` (R177). -/
def discardRemainder (s : State) : State :=
  recordRemainder s.buf
    (bump .invalidRequests (bump .totalRequests
      (emit (.frameReceived s.buf false) { s with buf := [], phase := .idle })))

end Sys2Proof.Machine
end

