-- ==== Sys2Proof/Machine/HostCommands.lean ====
section
/-! DEFINITION. The host's commands (44_statistics.md R330, R331; 60_exceptions.md R361; 70_reset_and_hazards.md R380),
and which step the block takes next (41_synchronizer.md R161, R181). -/

namespace Sys2Proof.Machine

/-- `ClearStats` (R330). -/
def clearStats (s : State) : State := { s with stats := Stats.zero s.stats.perDevice.length, ring := [] }

/-- `Snapshot` (R331). -/
def snapshot (s : State) : State := emit (.statisticsSnapshot s.stats s.ring) s

/-- `Stop` (R361). -/
def stop (s : State) : State := { s with phase := .stopped }

/-- `Reset` (R380): every piece of the block's state takes its reset value. The configuration is fixed (R46); the
host's queues are not the block's state and stay (log 4). A configuration that fails R382's check has no initial
state. -/
def resetBlock (s : State) : Host.Outcome State Fault Refusal :=
  if s.cfg.Valid then .next { State.resetWith s.cfg with inputs := s.inputs, outputs := s.outputs }
  else .refused .invalidConfiguration

/-- The step the block takes. -/
inductive Move where
  /-- `Extract`, from this state (R175). -/
  | extract (s : State)
  /-- Any other step, with its outcome. -/
  | done (o : Host.Outcome State Fault Refusal)

/-- Which step comes next and, for every step but `Extract`, its outcome (R161, R181; logs 2 and 6). With no input the
block takes its own step in phase Extracting and waits otherwise; a byte held in phase Extracting stays in the queue
and the block takes its own step (R165); every other input is consumed. -/
def nextMove (s : State) : Move :=
  match s.inputs with
  | [] => if s.phase = .extracting then .extract s else .done (.next s)
  | i :: rest =>
    let t := { s with inputs := rest }
    match i with
    | .rxByte b => if s.phase = .extracting then .extract s else .done (.next (receiveByte b t))
    | .silence e => .done (.next (silence e t))
    | .extract => if s.phase = .extracting then .extract t else .done (.next t)
    | .clearStats => .done (.next (clearStats t))
    | .snapshot => .done (.next (snapshot t))
    | .stop => .done (.next (stop t))
    | .reset => .done (resetBlock t)

end Sys2Proof.Machine
end

