-- ==== Sys2Proof/Machine/Step.lean ====
section
/-! DEFINITION. The step function of the block (41_synchronizer.md R181), over the operations of the other files, and
the placing of one instruction where the next step fetches it. -/

namespace Sys2Proof.Machine

/-- `Extract` (R175): the shortest frame at the front of the buffer is removed and executed; with none, the buffer is
discarded (R177). -/
def extractStep (s : State) : Host.Outcome State Fault Refusal :=
  match fetch s.buf with
  | some (i, rest) => exec i (dropFrame rest s)
  | none => .next (discardRemainder s)

/-- One step of the block (R181). -/
def step (s : State) : Host.Outcome State Fault Refusal :=
  match nextMove s with
  | .extract t => extractStep t
  | .done o => o

/-- `s` with the instruction of a table row's bits ready to be extracted (log 7): its frame, addressed to the first
device, is the buffer, the gap has been seen, and the block's own turn is next. -/
def State.withFetchWord (s : State) (nbits w : Nat) : State :=
  { s with
    phase := .extracting
    buf := tableFrame (BitVec.ofNat 8 s.cfg.baseAddr) nbits w
    inputs := .extract :: s.inputs }

end Sys2Proof.Machine
end

