-- ==== Sys2Proof/Safety.lean ====
section
/-! DEFINITION. What claims about the block are stated in: the invariant of its states (10_state.md R32, R33, R39, R40,
R45; 41_synchronizer.md R180; 44_statistics.md R301, R314), what a step leaves unchanged, and how the counters and the
outputs of one request move (42_dispatch.md R200, R222; 44_statistics.md R302). -/

namespace Sys2Proof.Machine

/-- The content of an error record (44_statistics.md R314): a CRC record holds 4 bytes or more that are no frame, the
CRC they should have carried and its offset; an Unsupported record a whole frame and the offset of its function byte;
no record is of kind Timeout (60_exceptions.md R343). -/
def RecordOk (r : ErrorRecord) : Prop :=
  match r.kind with
  | .crc => 4 ≤ r.raw.length ∧ verify r.raw = false ∧
      r.expected = some (crc16 (r.raw.take (r.raw.length - 2))) ∧ r.offset = some (r.raw.length - 2)
  | .framing => r.expected = none ∧ r.offset = none
  | .unsupported => verify r.raw = true ∧ r.raw.getD 1 0#8 ∉ supportedFunctions ∧
      r.expected = none ∧ r.offset = some 1
  | .timeout => False

/-- The invariant of the block's states. -/
structure StateInv (s : State) : Prop where
  /-- 00_scope.md R9-R11. -/
  cfgValid : s.cfg.Valid
  /-- R35. -/
  devLength : s.dev.length = s.cfg.nDev
  /-- R43. -/
  perDeviceLength : s.stats.perDevice.length = s.cfg.nDev
  /-- R33, R180. -/
  bufBound : s.buf.length ≤ maxBuf
  /-- R32, R180. -/
  idleEmpty : s.phase = .idle → s.buf = []
  /-- R32, R180. -/
  busyNonempty : s.phase = .receiving ∨ s.phase = .extracting → s.buf ≠ []
  /-- R45, R310. -/
  ringBound : s.ring.length ≤ 5
  /-- R314, R343. -/
  recordsOk : ∀ r ∈ s.ring, RecordOk r
  /-- R301. -/
  countersBounded : ∀ c : Counter, stat c s ≤ 2 ^ s.cfg.cntWidth - 1
  /-- R39: nothing writes the input registers. -/
  inputRegsZero : ∀ d ∈ s.dev, d.ir = Vector.replicate 256 0#16
  /-- R40: nothing writes the discrete inputs. -/
  discreteInputsFalse : ∀ d ∈ s.dev, d.di = Vector.replicate 256 false

/-- What no request touches: the synchronizer, the configuration and the host's queue of inputs. -/
def BlockUnchanged (s t : State) : Prop :=
  t.phase = s.phase ∧ t.buf = s.buf ∧ t.cfg = s.cfg ∧ t.inputs = s.inputs

/-- Every counter moved by exactly `delta`, saturating (44_statistics.md R301), and no other. -/
def CountsMoved (delta : Counter → Nat) (s t : State) : Prop :=
  ∀ c, stat c t = if delta c = 0 then stat c s else min (stat c s + delta c) (2 ^ s.cfg.cntWidth - 1)

/-- The second row of 44_statistics.md R302 for slot `k` and function index `fidx`, a response of `len` bytes, and the
locks the request opened and closed (R304). -/
def requestDelta (k fidx len opened closed : Nat) : Counter → Nat
  | .totalRequests => 1
  | .validRequests => 1
  | .responsesSent => 1
  | .bytesSent => len
  | .locksOpened => opened
  | .locksClosed => closed
  | .perDevice k' => if k' = k then 1 else 0
  | .perFunction j => if j = fidx then 1 else 0
  | _ => 0

/-- The first row of 44_statistics.md R302: a foreign address. -/
def foreignDelta : Counter → Nat
  | .totalRequests => 1
  | _ => 0

/-- The third row of 44_statistics.md R302: an unsupported function, answered with 5 bytes. -/
def illegalDelta : Counter → Nat
  | .totalRequests => 1
  | .invalidRequests => 1
  | .unsupportedFunctions => 1
  | .responsesSent => 1
  | .bytesSent => 5
  | _ => 0

/-- The fourth and fifth rows of 44_statistics.md R302: a discarded remainder of `len` bytes. -/
def remainderDelta (len : Nat) : Counter → Nat
  | .totalRequests => 1
  | .invalidRequests => 1
  | .framingErrors => if len < 4 then 1 else 0
  | .crcErrors => if len < 4 then 0 else 1
  | _ => 0

/-- The last row of 44_statistics.md R302, with the byte that overflowed the buffer (R303). -/
def overflowDelta : Counter → Nat
  | .totalRequests => 1
  | .invalidRequests => 1
  | .framingErrors => 1
  | .bytesReceived => 1
  | _ => 0

/-- One received byte (44_statistics.md R303). -/
def byteDelta : Counter → Nat
  | .bytesReceived => 1
  | _ => 0

/-- The ring with one more record, the oldest evicted once 5 are held (44_statistics.md R312). -/
def ringWith (ring : List ErrorRecord) (r : ErrorRecord) : List ErrorRecord :=
  if ring.length < 5 then ring ++ [r] else (ring ++ [r]).drop 1

/-- The outputs of one answered request, in the order of 42_dispatch.md R222: the frame, what the function emits, the
response with its CRC. -/
def Answered (i : Instr) (middle : List Output) (rbody : List Byte) (s t : State) : Prop :=
  t.outputs = s.outputs ++ [.frameReceived (encode i) true] ++ middle ++
    [.tx (appendCrc rbody), .responseSent (appendCrc rbody)]

/-- A request that was answered with the exception of code `code` (60_exceptions.md R345): only the counters of the
second row of R302 and the outputs moved. -/
def TookException (i : Instr) (k fidx : Nat) (code : Byte) (s t : State) : Prop :=
  BlockUnchanged s t ∧ t.dev = s.dev ∧ t.ring = s.ring ∧
    CountsMoved (requestDelta k fidx 5 0 0) s t ∧
    Answered i [] [i.address, i.functionCode ||| 0x80#8, code] s t

/-- The request completes, and with the exception of code `code`. -/
def Excepts (i : Instr) (k fidx : Nat) (code : Byte) (s : State) : Prop :=
  ∃ t, exec i s = .next t ∧ TookException i k fidx code s t

/-- The cells of slot `k` other than its coils, and every other device, are as before. -/
def OnlyCoilsOf (k : Nat) (s t : State) : Prop :=
  t.dev.length = s.dev.length ∧ (∀ k', k' ≠ k → t.dev[k']? = s.dev[k']?) ∧
    (device k t).status = (device k s).status ∧ (device k t).hr = (device k s).hr ∧
    (device k t).ir = (device k s).ir ∧ (device k t).di = (device k s).di

/-- The cells of slot `k` other than its holding registers, and every other device, are as before. -/
def OnlyHoldingRegsOf (k : Nat) (s t : State) : Prop :=
  t.dev.length = s.dev.length ∧ (∀ k', k' ≠ k → t.dev[k']? = s.dev[k']?) ∧
    (device k t).status = (device k s).status ∧ (device k t).coil = (device k s).coil ∧
    (device k t).ir = (device k s).ir ∧ (device k t).di = (device k s).di

/-- The cells of slot `k` other than its status mirror, and every other device, are as before. -/
def OnlyMirrorOf (k : Nat) (s t : State) : Prop :=
  t.dev.length = s.dev.length ∧ (∀ k', k' ≠ k → t.dev[k']? = s.dev[k']?) ∧
    (device k t).coil = (device k s).coil ∧ (device k t).hr = (device k s).hr ∧
    (device k t).ir = (device k s).ir ∧ (device k t).di = (device k s).di

/-- A bit read of `count` items whose item `j` is `value j` completes with format RB (30_encoding.md R108): `count`
packed bits, the unused ones 0, after their byte count. -/
def AnsweredBits (i : Instr) (k fidx count : Nat) (value : Nat → Bool) (s t : State) : Prop :=
  ∃ bits : List Byte, bits.length = (count + 7) / 8 ∧
    (∀ j, (bits.getD (j / 8) 0#8).getLsbD (j % 8) = (decide (j < count) && value j)) ∧
    BlockUnchanged s t ∧ t.ring = s.ring ∧
    CountsMoved (requestDelta k fidx (bits.length + 5) 0 0) s t ∧
    Answered i [] ([i.address, i.functionCode, BitVec.ofNat 8 bits.length] ++ bits) s t

/-- A register read of `count` registers, register `j` being `value j`, completes with format RR (30_encoding.md R109),
each register high byte first, and leaves all storage as it was. -/
def AnsweredRegs (i : Instr) (k fidx count : Nat) (value : Nat → U16) (s t : State) : Prop :=
  ∃ data : List Byte, data.length = 2 * count ∧
    (∀ j < count, (data.getD (2 * j) 0#8).toNat = (value j).toNat / 256 ∧
      (data.getD (2 * j + 1) 0#8).toNat = (value j).toNat % 256) ∧
    BlockUnchanged s t ∧ t.dev = s.dev ∧ t.ring = s.ring ∧
    CountsMoved (requestDelta k fidx (data.length + 5) 0 0) s t ∧
    Answered i [] ([i.address, i.functionCode, BitVec.ofNat 8 data.length] ++ data) s t

/-- The coils of a run that a write changes, in increasing index (43_functions.md R265, R280). -/
def changedCoils (k start count : Nat) (value : Nat → Bool) (s : State) : List Nat :=
  (List.range count).filter fun j => coil k (start + j) s != value j

/-- The coils `start .. start + count - 1` of slot `k` are written with `value` and nothing else of the storage is: each
changed coil moves one lock counter and emits one event (43_functions.md R265), and `rbody` is answered. -/
def WroteCoils (i : Instr) (k fidx start count : Nat) (value : Nat → Bool) (rbody : List Byte) (s t : State) : Prop :=
  BlockUnchanged s t ∧ t.ring = s.ring ∧ OnlyCoilsOf k s t ∧
    (∀ j < 48, coil k j t = if start ≤ j ∧ j < start + count then value (j - start) else coil k j s) ∧
    CountsMoved (requestDelta k fidx (rbody.length + 2)
      ((changedCoils k start count value s).countP fun j => !value j)
      ((changedCoils k start count value s).countP fun j => value j)) s t ∧
    Answered i ((changedCoils k start count value s).map fun j =>
      .lockStateChanged (s.cfg.baseAddr + k) (start + j) (value j)) rbody s t

/-- The holding registers `start .. start + count - 1` of slot `k` are written with `value` and nothing else of the
storage is, and `rbody` is answered. -/
def WroteRegs (i : Instr) (k fidx start count : Nat) (value : Nat → U16) (rbody : List Byte) (s t : State) : Prop :=
  BlockUnchanged s t ∧ t.ring = s.ring ∧ OnlyHoldingRegsOf k s t ∧
    (∀ j < 256, holdingReg k j t = if start ≤ j ∧ j < start + count then value (j - start) else holdingReg k j s) ∧
    CountsMoved (requestDelta k fidx (rbody.length + 2) 0 0) s t ∧
    Answered i [] rbody s t

/-- Address byte `a` names device slot `k`, which the device table and the per-device counters have. -/
def Names (s : State) (a : Byte) (k : Nat) : Prop :=
  a.toNat = s.cfg.baseAddr + k ∧ k < s.cfg.nDev ∧ k < s.dev.length ∧ k < s.stats.perDevice.length

/-- One bit of one byte of a frame inverted (40_crc.md R145). -/
def flipBit (frame : List Byte) (n bit : Nat) : List Byte := frame.modify n fun b => b ^^^ (1#8 <<< bit)

/-- The block's own step is the next one (41_synchronizer.md R161, R165): phase Extracting, and the queue of inputs is
empty or a held byte is at its head. -/
def OwnTurn (s : State) : Prop :=
  s.phase = .extracting ∧ (s.inputs = [] ∨ ∃ b q, s.inputs = .rxByte b :: q)

/-- The next step is `Extract`, and `u` is the state it extracts from: `s` itself in the block's own turn, or `s` without
the input `extract` that stood at the head of its queue in phase Extracting (41_synchronizer.md R161, R175; logs 2, 6). -/
def Extracts (s u : State) : Prop :=
  (OwnTurn s ∧ u = s) ∨ (s.phase = .extracting ∧ ∃ q, s.inputs = .extract :: q ∧ u = { s with inputs := q })

end Sys2Proof.Machine
end

