-- ==== Sys2Proof/Certificates/Slice0/Obligations.lean ====
section
/-! DEFINITION. The statements for the provers. Each is about every state, unless it says otherwise; a premise `StateInv`
or `Names` rules out only states that no run reaches. The head of `s.inputs` is the input of 41_synchronizer.md R181's
step function; a step that consumes it (R161) leaves the rest of the queue. The queue itself, and that the outputs of all
steps are kept in one list, are the model's (logs 2 and 3). -/

open Sys2Proof Sys2Proof.Machine

/-! ## CRC engine -/

/-- 40_crc.md R144 (derived there): the round trip holds from two bytes on and fails below. -/
def Obligations.AppendedCrcVerifiesFromTwoBytesOn : Prop :=
  ∀ d : List Byte, verify (appendCrc d) = true ↔ 2 ≤ d.length

/-- 40_crc.md R143: false below 4 bytes, else the trailing two bytes, low byte first, against the CRC of the rest. -/
def Obligations.VerifyComparesTheTrailingBytes : Prop :=
  (∀ f : List Byte, f.length < 4 → verify f = false) ∧
  ∀ (d : List Byte) (lo hi : Byte), 2 ≤ d.length →
    (verify (d ++ [lo, hi]) = true ↔ hi.toNat * 256 + lo.toNat = (crc16 d).toNat)

/-- 40_crc.md R145: flipping any single bit of a CRC-valid frame, in body or CRC, makes it invalid. -/
def Obligations.SingleBitErrorsAreDetected : Prop :=
  ∀ f : List Byte, verify f = true → ∀ n < f.length, ∀ b < 8, verify (flipBit f n b) = false

/-! ## Encoding -/

/-- Every well-formed instruction is read back from its frame (30_encoding.md R100-R107, R112). -/
def Obligations.DecodeOfEncode : Prop :=
  ∀ i : Instr, i.wf = true → decode (encode i) = .ok i

/-- What the decoder reads is well formed and has that very frame: no bit of a frame is dropped. -/
def Obligations.EncodeOfDecode : Prop :=
  ∀ (f : List Byte) (i : Instr), decode f = .ok i → i.wf = true ∧ encode i = f

/-- 30_encoding.md R117: every CRC-valid frame decodes, and nothing else does; the rejections have their names. -/
def Obligations.DecodingIsTotalOnValidFrames : Prop :=
  ∀ f : List Byte, ((∃ i, decode f = .ok i) ↔ verify f = true) ∧
    (decode f = .error .tooShort ↔ f.length < 4) ∧
    (decode f = .error .crcMismatch ↔ 4 ≤ f.length ∧ verify f = false)

/-- 30_encoding.md R112 and R114: the function byte selects the operation; the other 248 values are illegal functions. -/
def Obligations.FunctionByteSelectsTheOperation : Prop :=
  ∀ (a : Byte) (p : List Byte),
    decode (appendCrc (a :: 0x01#8 :: p)) = .ok (.readCoils a (decodeRead p)) ∧
    decode (appendCrc (a :: 0x02#8 :: p)) = .ok (.readDiscreteInputs a (decodeRead p)) ∧
    decode (appendCrc (a :: 0x03#8 :: p)) = .ok (.readHoldingRegisters a (decodeRead p)) ∧
    decode (appendCrc (a :: 0x04#8 :: p)) = .ok (.readInputRegisters a (decodeRead p)) ∧
    decode (appendCrc (a :: 0x05#8 :: p)) = .ok (.writeSingleCoil a (decodeWrite p)) ∧
    decode (appendCrc (a :: 0x06#8 :: p)) = .ok (.writeSingleRegister a (decodeWrite p)) ∧
    decode (appendCrc (a :: 0x0F#8 :: p)) = .ok (.writeMultipleCoils a (decodeMulti p)) ∧
    decode (appendCrc (a :: 0x10#8 :: p)) = .ok (.writeMultipleRegisters a (decodeMulti p)) ∧
    ∀ fc : Byte, fc ∉ supportedFunctions → decode (appendCrc (a :: fc :: p)) = .ok (.illegalFunction a fc p)

/-- 30_encoding.md R104-R106 and 20_memory.md R75: where the fields lie, big-endian, and which bodies are malformed. -/
def Obligations.FieldsLieWhereTheFormatsSay : Prop :=
  (∀ x1 x0 y1 y0 : Byte, ∃ x y : U16, x.toNat = x1.toNat * 256 + x0.toNat ∧ y.toNat = y1.toNat * 256 + y0.toNat ∧
    decodeRead [x1, x0, y1, y0] = .fields x y ∧ decodeWrite [x1, x0, y1, y0] = .fields x y ∧
    ∀ (bc : Byte) (v : List Byte), decodeMulti ([x1, x0, y1, y0, bc] ++ v) =
      if v.length = bc.toNat then .fields x y bc v else .malformed ([x1, x0, y1, y0, bc] ++ v)) ∧
  (∀ p : List Byte, p.length ≠ 4 → decodeRead p = .malformed p ∧ decodeWrite p = .malformed p) ∧
  (∀ p : List Byte, p.length < 5 → decodeMulti p = .malformed p)

/-- Frames written out byte by byte in spec/95_test_vectors.md (V30, V37, V39, V39d, V40, V44, V45, V48, V53). -/
def Obligations.SampleFramesDecode : Prop :=
  decode [0x01, 0x01, 0x00, 0x00, 0x00, 0x30, 0x3C, 0x1E] = .ok (.readCoils 1 (.fields 0 48)) ∧
  decode [0x01, 0x02, 0x00, 0x00, 0x00, 0x10, 0x79, 0xC6] = .ok (.readDiscreteInputs 1 (.fields 0 16)) ∧
  decode [0x01, 0x03, 0x00, 0x00, 0x00, 0x01, 0x84, 0x0A] = .ok (.readHoldingRegisters 1 (.fields 0 1)) ∧
  decode [0x01, 0x04, 0x00, 0x00, 0x00, 0x02, 0x71, 0xCB] = .ok (.readInputRegisters 1 (.fields 0 2)) ∧
  decode [0x01, 0x05, 0x00, 0x00, 0xFF, 0x00, 0x8C, 0x3A] = .ok (.writeSingleCoil 1 (.fields 0 0xFF00)) ∧
  decode [0x01, 0x06, 0x00, 0xFF, 0xFF, 0xFF, 0xB8, 0x4A] = .ok (.writeSingleRegister 1 (.fields 255 0xFFFF)) ∧
  decode [0x01, 0x0F, 0x00, 0x00, 0x00, 0x08, 0x01, 0x0F, 0xBE, 0x91] =
    .ok (.writeMultipleCoils 1 (.fields 0 8 1 [0x0F])) ∧
  decode [0x01, 0x10, 0x00, 0x00, 0x00, 0x02, 0x04, 0x00, 0x0A, 0x01, 0x02, 0x53, 0xFC] =
    .ok (.writeMultipleRegisters 1 (.fields 0 2 4 [0x00, 0x0A, 0x01, 0x02])) ∧
  decode [0x01, 0x07, 0x41, 0xE2] = .ok (.illegalFunction 1 0x07 [])

/-! ## Synchronizer -/

/-- 41_synchronizer.md R175: the block's own step executes the instruction at the front of the buffer, the buffer being
what follows its frame and the phase Idle if that is nothing. -/
def Obligations.StepRunsTheDecodedInstruction : Prop :=
  (∀ (s : State) (i : Instr) (rest : List Byte), OwnTurn s → fetch s.buf = some (i, rest) →
    step s = exec i { s with buf := rest, phase := if rest = [] then .idle else .extracting }) ∧
  (∀ (s : State) (q : List Input) (i : Instr) (rest : List Byte), s.phase = .extracting → s.inputs = .extract :: q →
    fetch s.buf = some (i, rest) →
    step s = exec i { s with buf := rest, phase := if rest = [] then .idle else .extracting, inputs := q })

/-- 30_encoding.md R116: the instruction fetched is the shortest prefix of at least 4 bytes that is CRC-valid, and
nothing is fetched only if there is none. -/
def Obligations.FetchTakesTheShortestValidFrame : Prop :=
  ∀ buf : List Byte,
    (∀ (i : Instr) (rest : List Byte), fetch buf = some (i, rest) ↔
      ∃ l, 4 ≤ l ∧ l ≤ buf.length ∧ verify (buf.take l) = true ∧
        (∀ m, 4 ≤ m → m < l → verify (buf.take m) = false) ∧
        decode (buf.take l) = .ok i ∧ rest = buf.drop l) ∧
    (fetch buf = none ↔ ∀ l, 4 ≤ l → l ≤ buf.length → verify (buf.take l) = false)

/-- 41_synchronizer.md R177: a remainder without a CRC-valid prefix is discarded, counted and recorded, unanswered, in
the block's own turn and by an input `extract` alike. -/
def Obligations.RemainderIsDiscardedAndRecorded : Prop :=
  ∀ s u : State, Extracts s u → (∀ l, 4 ≤ l → l ≤ s.buf.length → verify (s.buf.take l) = false) →
    ∃ (t : State) (r : ErrorRecord), step s = .next t ∧
      r = (if s.buf.length < 4 then ⟨.framing, s.buf, none, none⟩
        else ⟨.crc, s.buf, some (crc16 (s.buf.take (s.buf.length - 2))), some (s.buf.length - 2)⟩) ∧
      t.buf = [] ∧ t.phase = .idle ∧ t.dev = s.dev ∧ t.cfg = s.cfg ∧ t.inputs = u.inputs ∧
      t.ring = ringWith s.ring r ∧ CountsMoved (remainderDelta s.buf.length) s t ∧
      t.outputs = s.outputs ++ [.frameReceived s.buf false, .errorOccurred r]

/-- 41_synchronizer.md R162. -/
def Obligations.ByteInIdleStartsTheBuffer : Prop :=
  ∀ (s : State) (b : Byte) (q : List Input), s.inputs = .rxByte b :: q → s.phase = .idle →
    ∃ t, step s = .next t ∧ t.buf = [b] ∧ t.phase = .receiving ∧ CountsMoved byteDelta s t ∧
      t.outputs = s.outputs ∧ t.dev = s.dev ∧ t.ring = s.ring ∧ t.cfg = s.cfg ∧ t.inputs = q

/-- 41_synchronizer.md R163. -/
def Obligations.ByteInReceivingIsAppended : Prop :=
  ∀ (s : State) (b : Byte) (q : List Input), s.inputs = .rxByte b :: q → s.phase = .receiving →
    s.buf.length < 4096 →
    ∃ t, step s = .next t ∧ t.buf = s.buf ++ [b] ∧ t.phase = .receiving ∧ CountsMoved byteDelta s t ∧
      t.outputs = s.outputs ∧ t.dev = s.dev ∧ t.ring = s.ring ∧ t.cfg = s.cfg ∧ t.inputs = q

/-- 41_synchronizer.md R164, without a scan (60_exceptions.md R351). -/
def Obligations.ByteAtAFullBufferDiscardsIt : Prop :=
  ∀ (s : State) (b : Byte) (q : List Input), s.inputs = .rxByte b :: q → s.phase = .receiving →
    s.buf.length = 4096 →
    ∃ t, step s = .next t ∧ t.buf = [] ∧ t.phase = .idle ∧ CountsMoved overflowDelta s t ∧
      t.ring = ringWith s.ring ⟨.framing, s.buf, none, none⟩ ∧
      t.outputs = s.outputs ++ [.errorOccurred ⟨.framing, s.buf, none, none⟩] ∧
      t.dev = s.dev ∧ t.cfg = s.cfg ∧ t.inputs = q

/-- 41_synchronizer.md R165: a byte offered in phase Extracting stays in the host's queue, uncounted, and what the block
does meanwhile only shortens the buffer. That the block takes its own step is the model's choice (log 6). -/
def Obligations.ByteIsHeldWhileExtracting : Prop :=
  ∀ (s : State) (b : Byte) (q : List Input), s.inputs = .rxByte b :: q → s.phase = .extracting →
    ∃ t, step s = .next t ∧ t.inputs = .rxByte b :: q ∧ t.buf <:+ s.buf ∧
      (s.buf ≠ [] → t.buf.length < s.buf.length) ∧ stat .bytesReceived t = stat .bytesReceived s

/-- 41_synchronizer.md R166. -/
def Obligations.ByteWhenStoppedIsDropped : Prop :=
  ∀ (s : State) (b : Byte) (q : List Input), s.inputs = .rxByte b :: q → s.phase = .stopped →
    step s = .next { s with inputs := q }

/-- 41_synchronizer.md R170: the integer comparison is the inclusive comparison with the rational frame gap. -/
def Obligations.GapIsReachedFromTheRationalThresholdOn : Prop :=
  ∀ (cfg : Cfg) (e : Nat), 0 < cfg.baud →
    (gapReached cfg e = true ↔
      cfg.gapFloorNs ≤ e ∧ cfg.gapCharsX2 * cfg.charBits * 1000000000 ≤ 2 * e * cfg.baud) ∧
    (gapReached cfg e = true ↔
      max (cfg.gapFloorNs : ℚ) ((cfg.gapCharsX2 : ℚ) / 2 * cfg.charBits * 1000000000 / cfg.baud) ≤ e)

/-- 41_synchronizer.md R171. -/
def Obligations.SilenceOfTheGapStartsExtraction : Prop :=
  ∀ (s : State) (e : Nat) (q : List Input), s.inputs = .silence e :: q → s.phase = .receiving →
    gapReached s.cfg e = true → step s = .next { s with inputs := q, phase := .extracting }

/-- 41_synchronizer.md R172. -/
def Obligations.OtherSilenceHasNoEffect : Prop :=
  ∀ (s : State) (e : Nat) (q : List Input), s.inputs = .silence e :: q →
    ¬ (s.phase = .receiving ∧ gapReached s.cfg e = true) → step s = .next { s with inputs := q }

/-- 41_synchronizer.md R180: phase Extracting is entered only by a silence that reaches the gap, out of Receiving. -/
def Obligations.ExtractionIsEnteredOnlyAtTheGap : Prop :=
  ∀ s t : State, step s = .next t → t.phase = .extracting → s.phase ≠ .extracting →
    s.phase = .receiving ∧ t.buf = s.buf ∧ ∃ e, s.inputs.head? = some (.silence e) ∧ gapReached s.cfg e = true

/-- 41_synchronizer.md R179: from phase Extracting with `n` buffered bytes the block, left to its own steps, is back in
Idle with an empty buffer within `n / 4 + 1` steps. -/
def Obligations.ExtractionEndsWithinItsBound : Prop :=
  ∀ s : State, OwnTurn s → ∃ n ≤ s.buf.length / 4 + 1, ∃ t,
    Host.Core.run Sys2Proof.core n s = .next t ∧ t.phase = .idle ∧ t.buf = [] ∧ t.inputs = s.inputs

/-- 41_synchronizer.md R176: two frames received back to back are extracted one by one, in order, if no shorter prefix
of either is CRC-valid. -/
def Obligations.BackToBackFramesRunInOrder : Prop :=
  ∀ (s : State) (i j : Instr), OwnTurn s → i.wf = true → j.wf = true → s.buf = encode i ++ encode j →
    (∀ m, 4 ≤ m → m < (encode i).length → verify ((encode i).take m) = false) →
    (∀ m, 4 ≤ m → m < (encode j).length → verify ((encode j).take m) = false) →
    ∃ t u, step s = .next t ∧ exec i { s with buf := encode j } = .next t ∧
      step t = .next u ∧ exec j { t with buf := [], phase := .idle } = .next u ∧ u.buf = [] ∧ u.phase = .idle

/-! ## Dispatch -/

/-- 42_dispatch.md R201. -/
def Obligations.ForeignAddressIsSilent : Prop :=
  ∀ (i : Instr) (s : State),
    i.address.toNat < s.cfg.baseAddr ∨ s.cfg.baseAddr + s.cfg.nDev ≤ i.address.toNat →
    ∃ t, exec i s = .next t ∧ BlockUnchanged s t ∧ t.dev = s.dev ∧ t.ring = s.ring ∧
      CountsMoved foreignDelta s t ∧ t.outputs = s.outputs ++ [.frameReceived (encode i) true]

/-- 42_dispatch.md R210-R212, R222: every answered request ends with one response of 5 to 256 bytes that carries a
valid CRC, the request's address, and its function byte with or without bit 7. -/
def Obligations.EveryResponseFitsTheWireFormat : Prop :=
  ∀ (i : Instr) (s t : State) (k : Nat), slotOf s.cfg i.address = some k → exec i s = .next t →
    ∃ (middle : List Output) (rbody : List Byte), Answered i middle rbody s t ∧
      5 ≤ (appendCrc rbody).length ∧ (appendCrc rbody).length ≤ 256 ∧ verify (appendCrc rbody) = true ∧
      rbody.getD 0 0#8 = i.address ∧
      (rbody.getD 1 0#8 = i.functionCode ∨ rbody.getD 1 0#8 = i.functionCode ||| 0x80#8) ∧
      ∀ o ∈ middle, (∃ d n c, o = .lockStateChanged d n c) ∨ ∃ r, o = .errorOccurred r

/-! ## Functions -/

/-- 43_functions.md R240, with the resynchronised mirror (R241), the packing (R242) and read-to-end (R243): every
operand form, in the order of its checks. -/
def Obligations.ReadCoilsAnswers : Prop :=
  ∀ (s : State) (a : Byte) (k : Nat), Names s a k →
    (∀ p, Excepts (.readCoils a (.malformed p)) k 0 0x04 s) ∧
    ∀ start count : U16, let i : Instr := .readCoils a (.fields start count)
      let Reads : Nat → Prop := fun n => ∃ t, exec i s = .next t ∧
        AnsweredBits i k 0 n (fun j => coil k (start.toNat + j) s) s t ∧ OnlyMirrorOf k s t ∧
        ∀ j < 48, (statusByte k (j / 8) t).getLsbD (j % 8) = coil k j s
      (count.toNat = 0 → s.cfg.compatReadToEnd = false → Excepts i k 0 0x03 s) ∧
      (count.toNat = 0 → s.cfg.compatReadToEnd = true → 48 ≤ start.toNat → Excepts i k 0 0x02 s) ∧
      (count.toNat = 0 → s.cfg.compatReadToEnd = true → start.toNat < 48 → Reads (48 - start.toNat)) ∧
      (count.toNat ≠ 0 → 48 < start.toNat + count.toNat → Excepts i k 0 0x02 s) ∧
      (count.toNat ≠ 0 → start.toNat + count.toNat ≤ 48 → Reads count.toNat)

/-- 43_functions.md R250. -/
def Obligations.ReadDiscreteInputsAnswers : Prop :=
  ∀ (s : State) (a : Byte) (k : Nat), Names s a k →
    (∀ p, Excepts (.readDiscreteInputs a (.malformed p)) k 1 0x04 s) ∧
    ∀ start count : U16, let i : Instr := .readDiscreteInputs a (.fields start count)
      (count.toNat = 0 → Excepts i k 1 0x03 s) ∧
      (count.toNat ≠ 0 → 256 < start.toNat + count.toNat → Excepts i k 1 0x02 s) ∧
      (count.toNat ≠ 0 → start.toNat + count.toNat ≤ 256 → ∃ t, exec i s = .next t ∧ t.dev = s.dev ∧
        AnsweredBits i k 1 count.toNat (fun j => discreteInput k (start.toNat + j) s) s t)

/-- 43_functions.md R254. -/
def Obligations.ReadHoldingRegistersAnswers : Prop :=
  ∀ (s : State) (a : Byte) (k : Nat), Names s a k →
    (∀ p, Excepts (.readHoldingRegisters a (.malformed p)) k 2 0x04 s) ∧
    ∀ start count : U16, let i : Instr := .readHoldingRegisters a (.fields start count)
      (count.toNat = 0 → Excepts i k 2 0x03 s) ∧
      (count.toNat ≠ 0 → 256 < start.toNat + count.toNat → Excepts i k 2 0x02 s) ∧
      (125 < count.toNat → start.toNat + count.toNat ≤ 256 → Excepts i k 2 0x04 s) ∧
      (count.toNat ≠ 0 → count.toNat ≤ 125 → start.toNat + count.toNat ≤ 256 → ∃ t, exec i s = .next t ∧
        AnsweredRegs i k 2 count.toNat (fun j => holdingReg k (start.toNat + j) s) s t)

/-- 43_functions.md R257. -/
def Obligations.ReadInputRegistersAnswers : Prop :=
  ∀ (s : State) (a : Byte) (k : Nat), Names s a k →
    (∀ p, Excepts (.readInputRegisters a (.malformed p)) k 3 0x04 s) ∧
    ∀ start count : U16, let i : Instr := .readInputRegisters a (.fields start count)
      (count.toNat = 0 → Excepts i k 3 0x03 s) ∧
      (count.toNat ≠ 0 → 256 < start.toNat + count.toNat → Excepts i k 3 0x02 s) ∧
      (125 < count.toNat → start.toNat + count.toNat ≤ 256 → Excepts i k 3 0x04 s) ∧
      (count.toNat ≠ 0 → count.toNat ≤ 125 → start.toNat + count.toNat ≤ 256 → ∃ t, exec i s = .next t ∧
        AnsweredRegs i k 3 count.toNat (fun j => inputReg k (start.toNat + j) s) s t)

/-- 43_functions.md R260, with the value of ON (R262) and the lock accounting (R265): the echo is the request's body. -/
def Obligations.WriteSingleCoilWritesAndEchoes : Prop :=
  ∀ (s : State) (a : Byte) (k : Nat), Names s a k →
    (∀ p, Excepts (.writeSingleCoil a (.malformed p)) k 4 0x04 s) ∧
    ∀ addr value : U16, let i : Instr := .writeSingleCoil a (.fields addr value)
      (value ≠ 0x0000 → value ≠ 0xFF00 → Excepts i k 4 0x03 s) ∧
      (value = 0x0000 ∨ value = 0xFF00 → 48 ≤ addr.toNat → Excepts i k 4 0x02 s) ∧
      (value = 0x0000 ∨ value = 0xFF00 → addr.toNat < 48 → ∃ t, exec i s = .next t ∧
        WroteCoils i k 4 addr.toNat 1
          (fun _ => if s.cfg.coilOnMeans = .opens then decide (value = 0x0000) else decide (value = 0xFF00))
          (encodeBody i) s t)

/-- 43_functions.md R270. -/
def Obligations.WriteSingleRegisterWritesAndEchoes : Prop :=
  ∀ (s : State) (a : Byte) (k : Nat), Names s a k →
    (∀ p, Excepts (.writeSingleRegister a (.malformed p)) k 5 0x04 s) ∧
    ∀ addr value : U16, let i : Instr := .writeSingleRegister a (.fields addr value)
      (256 ≤ addr.toNat → Excepts i k 5 0x02 s) ∧
      (addr.toNat < 256 → ∃ t, exec i s = .next t ∧
        WroteRegs i k 5 addr.toNat 1 (fun _ => value) (encodeBody i) s t)

/-- 43_functions.md R280, with the polarity of a request bit (R282) and the lock accounting (R265). -/
def Obligations.WriteMultipleCoilsWritesTheRun : Prop :=
  ∀ (s : State) (a : Byte) (k : Nat), Names s a k →
    (∀ p, Excepts (.writeMultipleCoils a (.malformed p)) k 6 0x04 s) ∧
    ∀ (start count : U16) (bc : Byte) (values : List Byte),
      let i : Instr := .writeMultipleCoils a (.fields start count bc values)
      (count.toNat = 0 → Excepts i k 6 0x03 s) ∧
      (count.toNat ≠ 0 → bc.toNat ≠ (count.toNat + 7) / 8 → Excepts i k 6 0x03 s) ∧
      (count.toNat ≠ 0 → bc.toNat = (count.toNat + 7) / 8 → 48 < start.toNat + count.toNat → Excepts i k 6 0x02 s) ∧
      (count.toNat ≠ 0 → bc.toNat = (count.toNat + 7) / 8 → start.toNat + count.toNat ≤ 48 →
        ∃ t, exec i s = .next t ∧ WroteCoils i k 6 start.toNat count.toNat
          (fun j => let bit := (values.getD (j / 8) 0#8).getLsbD (j % 8)
            if s.cfg.multiCoilMode = .direct then bit else if s.cfg.coilOnMeans = .opens then !bit else bit)
          [a, 0x0F, hiByte start, loByte start, hiByte count, loByte count] s t)

/-- 43_functions.md R290. -/
def Obligations.WriteMultipleRegistersWritesTheRun : Prop :=
  ∀ (s : State) (a : Byte) (k : Nat), Names s a k →
    (∀ p, Excepts (.writeMultipleRegisters a (.malformed p)) k 7 0x04 s) ∧
    ∀ (start count : U16) (bc : Byte) (values : List Byte),
      let i : Instr := .writeMultipleRegisters a (.fields start count bc values)
      (count.toNat = 0 → Excepts i k 7 0x03 s) ∧
      (count.toNat ≠ 0 → bc.toNat ≠ 2 * count.toNat → Excepts i k 7 0x03 s) ∧
      (count.toNat ≠ 0 → bc.toNat = 2 * count.toNat → 256 < start.toNat + count.toNat → Excepts i k 7 0x02 s) ∧
      (count.toNat ≠ 0 → bc.toNat = 2 * count.toNat → start.toNat + count.toNat ≤ 256 →
        ∃ t, exec i s = .next t ∧ WroteRegs i k 7 start.toNat count.toNat
          (fun j => be16 (values.getD (2 * j) 0#8) (values.getD (2 * j + 1) 0#8))
          [a, 0x10, hiByte start, loByte start, hiByte count, loByte count] s t)

/-- 43_functions.md R295: any payload; the whole frame is recorded, and the answer is exception 0x01. -/
def Obligations.IllegalFunctionIsRecordedAndAnswered : Prop :=
  ∀ (s : State) (a fc : Byte) (p : List Byte) (k : Nat), Names s a k →
    let i : Instr := .illegalFunction a fc p
    let r : ErrorRecord := ⟨.unsupported, appendCrc (a :: fc :: p), none, some 1⟩
    ∃ t, exec i s = .next t ∧ BlockUnchanged s t ∧ t.dev = s.dev ∧ t.ring = ringWith s.ring r ∧
      CountsMoved illegalDelta s t ∧ Answered i [.errorOccurred r] [a, fc ||| 0x80#8, 0x01] s t

/-! ## Frames and isolation -/

/-- 20_memory.md R70, R78: which function writes which data space of the addressed device; no request writes the input
registers, the discrete inputs, the synchronizer or the configuration. -/
def Obligations.RequestsWriteOnlyTheirDataSpace : Prop :=
  ∀ (i : Instr) (s t : State) (k : Nat), exec i s = .next t →
    BlockUnchanged s t ∧ t.dev.length = s.dev.length ∧
    (device k t).ir = (device k s).ir ∧ (device k t).di = (device k s).di ∧
    (i.functionCode ∉ [0x05#8, 0x0F#8] → (device k t).coil = (device k s).coil) ∧
    (i.functionCode ∉ [0x06#8, 0x10#8] → (device k t).hr = (device k s).hr) ∧
    (i.functionCode ≠ 0x01#8 → (device k t).status = (device k s).status)

/-- 10_state.md R41, the writes: a request leaves every device but the one it addresses as it was. -/
def Obligations.OtherDevicesAreUntouched : Prop :=
  ∀ (i : Instr) (s t : State) (k : Nat), exec i s = .next t → slotOf s.cfg i.address ≠ some k →
    t.dev[k]? = s.dev[k]?

/-- 10_state.md R41, the reads: what a request does to its device and what it puts out depend on nothing but that
device and the configuration: a write to another device cannot be observed. -/
def Obligations.RequestsDependOnTheirDeviceAlone : Prop :=
  ∀ (i : Instr) (s s' t t' : State) (k : Nat), slotOf s.cfg i.address = some k → s'.cfg = s.cfg →
    s'.dev[k]? = s.dev[k]? → exec i s = .next t → exec i s' = .next t' →
    t'.dev[k]? = t.dev[k]? ∧ t'.outputs.drop s'.outputs.length = t.outputs.drop s.outputs.length

/-- 20_memory.md R85, 44_statistics.md R305: a repeated request changes no storage and no lock counter, and its last
output is the same. -/
def Obligations.RepeatedRequestsAreIdempotent : Prop :=
  ∀ (i : Instr) (s t u : State), s.dev.length = s.cfg.nDev → exec i s = .next t → exec i t = .next u →
    u.dev = t.dev ∧ stat .locksOpened u = stat .locksOpened t ∧ stat .locksClosed u = stat .locksClosed t ∧
    u.outputs.getLast? = t.outputs.getLast?

/-! ## Host commands, registers and reset -/

/-- 44_statistics.md R330. -/
def Obligations.ClearStatsZeroesTheCountersAndTheRing : Prop :=
  ∀ (s : State) (q : List Input), s.inputs = .clearStats :: q →
    ∃ t, step s = .next t ∧ (∀ c, stat c t = 0) ∧ t.stats.perDevice.length = s.stats.perDevice.length ∧ t.ring = [] ∧
      t.dev = s.dev ∧ t.buf = s.buf ∧ t.phase = s.phase ∧ t.cfg = s.cfg ∧ t.outputs = s.outputs ∧ t.inputs = q

/-- 44_statistics.md R331. -/
def Obligations.SnapshotEmitsTheStatistics : Prop :=
  ∀ (s : State) (q : List Input), s.inputs = .snapshot :: q →
    step s = .next { s with inputs := q, outputs := s.outputs ++ [.statisticsSnapshot s.stats s.ring] }

/-- 60_exceptions.md R361. -/
def Obligations.StopChangesThePhaseAlone : Prop :=
  ∀ (s : State) (q : List Input), s.inputs = .stop :: q → step s = .next { s with inputs := q, phase := .stopped }

/-- 60_exceptions.md R362: the block leaves Stopped only by Reset; until then it keeps its buffer and storage, and takes
every input (41_synchronizer.md R161), ClearStats and Snapshot with their effect. That the inputs are a list, that an
`extract` in it is taken too, and that the block waits at its end are the model's choices (log 2). -/
def Obligations.OnlyResetLeavesStopped : Prop :=
  ∀ s : State, s.phase = .stopped → s.inputs.head? ≠ some .reset →
    ∃ t, step s = .next t ∧ t.phase = .stopped ∧ t.buf = s.buf ∧ t.dev = s.dev ∧ t.cfg = s.cfg ∧
      t.inputs = s.inputs.tail ∧
      (s.inputs.head? = some .clearStats → (∀ c, stat c t = 0) ∧ t.ring = []) ∧
      (s.inputs.head? ≠ some .clearStats → t.stats = s.stats ∧ t.ring = s.ring) ∧
      (s.inputs.head? = some .snapshot → t.outputs = s.outputs ++ [.statisticsSnapshot s.stats s.ring]) ∧
      (s.inputs.head? ≠ some .snapshot → t.outputs = s.outputs)

/-- 70_reset_and_hazards.md R380, R382, with the table of 10_state.md R50: from any state whose configuration is valid,
Reset gives every piece of state its reset value, puts nothing out and is consumed (41_synchronizer.md R161). That the
inputs behind it stay is the model's reading (log 4, DEDUCED), and so is the list they stand in (log 2). -/
def Obligations.ResetGivesEveryPieceItsResetValue : Prop :=
  ∀ (s : State) (q : List Input), s.inputs = .reset :: q → s.cfg.Valid →
    ∃ t, step s = .next t ∧ t.phase = .idle ∧ t.buf = [] ∧ t.ring = [] ∧ t.cfg = s.cfg ∧
      t.dev.length = s.cfg.nDev ∧ t.stats.perDevice.length = s.cfg.nDev ∧ (∀ c, stat c t = 0) ∧
      (∀ k < s.cfg.nDev, (∀ i < 48, coil k i t = true) ∧ (∀ j < 6, statusByte k j t = 0xFF) ∧
        ∀ i < 256, holdingReg k i t = 0 ∧ inputReg k i t = 0 ∧ discreteInput k i t = false) ∧
      t.outputs = s.outputs ∧ t.inputs = q

/-- 00_scope.md R20, 70_reset_and_hazards.md R382: a configuration that breaks its constraints has no initial state. -/
def Obligations.ResetRefusesAnInvalidConfiguration : Prop :=
  ∀ (s : State) (q : List Input), s.inputs = .reset :: q →
    (s.cfg.baud = 0 ∨ s.cfg.nDev = 0 ∨ 10 < s.cfg.nDev ∨ 255 < s.cfg.baseAddr + s.cfg.nDev - 1) →
    step s = .refused .invalidConfiguration

/-- 10_state.md R50 at `State.reset`. Its configuration (9600 baud, one device at address 1) is the model's (log 1). -/
def Obligations.ResetStateIsTheSpecsTable : Prop :=
  let s := State.reset
  s.phase = .idle ∧ s.buf = [] ∧ s.ring = [] ∧ s.dev.length = s.cfg.nDev ∧
    (∀ k < s.cfg.nDev, (∀ i < 48, coil k i s = true) ∧ (∀ j < 6, statusByte k j s = 0xFF) ∧
      ∀ i < 256, holdingReg k i s = 0 ∧ inputReg k i s = 0 ∧ discreteInput k i s = false) ∧
    (∀ c, stat c s = 0) ∧ s.stats.perDevice.length = s.cfg.nDev

/-- 10_state.md R46; that every other number is refused is 93_implementation_defined.md I7, and that it is refused under
this name is the model's reading (log 17, DEDUCED). -/
def Obligations.ConfigurationRegistersHaveTheirNumbers : Prop :=
  ∀ s : State, cfgRegister 0 s = .ok s.cfg.baud ∧ cfgRegister 1 s = .ok s.cfg.nDev ∧
    cfgRegister 2 s = .ok s.cfg.baseAddr ∧
    cfgRegister 3 s = .ok (if s.cfg.compatReadToEnd = true then 1 else 0) ∧
    cfgRegister 4 s = .ok (if s.cfg.coilOnMeans = .closes then 1 else 0) ∧
    cfgRegister 5 s = .ok (if s.cfg.multiCoilMode = .direct then 1 else 0) ∧
    ∀ n, 6 ≤ n → cfgRegister n s = .error (.unassignedRegister n)

/-- 10_state.md R47; at most 10 devices (R10), or the two ranges would meet. -/
def Obligations.StatisticsRegistersHaveTheirNumbers : Prop :=
  ∀ s : State, s.cfg.nDev ≤ 10 →
    statRegister 0 s = .ok s.stats.totalRequests ∧ statRegister 1 s = .ok s.stats.validRequests ∧
    statRegister 2 s = .ok s.stats.invalidRequests ∧ statRegister 3 s = .ok s.stats.crcErrors ∧
    statRegister 4 s = .ok s.stats.framingErrors ∧ statRegister 5 s = .ok s.stats.unsupportedFunctions ∧
    statRegister 6 s = .ok s.stats.bytesReceived ∧ statRegister 7 s = .ok s.stats.bytesSent ∧
    statRegister 8 s = .ok s.stats.responsesSent ∧ statRegister 9 s = .ok s.stats.locksOpened ∧
    statRegister 10 s = .ok s.stats.locksClosed ∧
    (∀ k < s.cfg.nDev, statRegister (16 + k) s = .ok (stat (.perDevice k) s)) ∧
    (∀ j < 8, statRegister (32 + j) s = .ok (stat (.perFunction j) s)) ∧
    ∀ n, 11 ≤ n → n < 16 ∨ 16 + s.cfg.nDev ≤ n → n < 32 ∨ 40 ≤ n →
      statRegister n s = .error (.unassignedRegister n)

/-! ## The whole machine -/

/-- 10_state.md R46, 60_exceptions.md R360: no step changes the configuration. -/
def Obligations.NoStepChangesTheConfiguration : Prop :=
  ∀ s t : State, step s = .next t → t.cfg = s.cfg

/-- 20_memory.md R74, 60_exceptions.md R360: device storage changes only in the block's own step or by Reset. -/
def Obligations.StorageChangesOnlyByRequestsOrReset : Prop :=
  ∀ s t : State, step s = .next t → t.dev ≠ s.dev →
    s.inputs.head? = some .reset ∨
      (s.phase = .extracting ∧ (OwnTurn s ∨ s.inputs.head? = some .extract) ∧ fetch s.buf ≠ none)

/-- 10_state.md R39, R40: nothing but Reset writes the input registers and the discrete inputs. -/
def Obligations.InputSpacesAreNeverWritten : Prop :=
  ∀ (s t : State) (k : Nat), step s = .next t → s.inputs.head? ≠ some .reset →
    (device k t).ir = (device k s).ir ∧ (device k t).di = (device k s).di

/-- 44_statistics.md R301: a counter never decreases except by ClearStats and Reset. -/
def Obligations.CountersNeverDecrease : Prop :=
  ∀ (s t : State) (c : Counter), StateInv s → step s = .next t →
    s.inputs.head? ≠ some .clearStats → s.inputs.head? ≠ some .reset → stat c s ≤ stat c t

/-- 44_statistics.md R320: no output is dropped or changed once emitted. That they are kept in the state is the model's
choice (log 3). -/
def Obligations.OutputsAreOnlyAppended : Prop :=
  ∀ s t : State, step s = .next t → s.outputs <+: t.outputs

/-- With no input and outside phase Extracting the block waits (70_reset_and_hazards.md R381; log 2). -/
def Obligations.BlockWaitsForInput : Prop :=
  ∀ s : State, s.inputs = [] → s.phase ≠ .extracting → step s = .next s

/-- Every reset state of a valid configuration meets the invariant. -/
def Obligations.InvariantHoldsAtReset : Prop :=
  StateInv State.reset ∧ ∀ c : Cfg, c.Valid → StateInv (State.resetWith c)

/-- Every step keeps the invariant (41_synchronizer.md R180, 44_statistics.md R301, R310, R314, 10_state.md R30-R45). -/
def Obligations.StepKeepsTheInvariant : Prop :=
  ∀ s t : State, StateInv s → step s = .next t → StateInv t

/-- 60_exceptions.md R344: nothing stops the block: from every state of the invariant, with whatever bytes and commands
the host has queued, every number of steps ends in a next state. -/
def Obligations.NothingStopsTheBlock : Prop :=
  ∀ (s : State) (n : Nat), StateInv s → ∃ t, Host.Core.run Sys2Proof.core n s = .next t ∧ StateInv t

/-- An input `extract` outside phase Extracting, where 41_synchronizer.md R161 does not enable it, is taken off the queue
and has no other effect: the model's choice (log 2). -/
def Obligations.ExtractOutsideExtractingIsPassedOver : Prop :=
  ∀ (s : State) (q : List Input), s.inputs = .extract :: q → s.phase ≠ .extracting → step s = .next { s with inputs := q }
end

