-- ==== Sys2Proof/Laws/Checks.lean ====
section
/-! SUPPORT. The operand checks of the functions as chains of conditions on natural numbers, in the order of
42_dispatch.md R206. -/

namespace Sys2Proof.Machine

/-- A 16-bit field is 0 exactly where its value is. -/
theorem toNat_eq_zero_iff (v : U16) : v.toNat = 0 ↔ v = 0#16 := by
  rw [← BitVec.toNat_inj]; simp

theorem checkRead_fields (space : Nat) (start count : U16) :
    checkRead space (.fields start count) =
      if count.toNat = 0 then .error .illegalValue
      else if space < start.toNat + count.toNat then .error .illegalAddress
      else .ok (start.toNat, count.toNat) := by
  simp only [checkRead, checkRange, ← toNat_eq_zero_iff]

theorem checkReadRegisters_fields (start count : U16) :
    checkReadRegisters (.fields start count) =
      if count.toNat = 0 then .error .illegalValue
      else if 256 < start.toNat + count.toNat then .error .illegalAddress
      else if 125 < count.toNat then .error .deviceFailure
      else .ok (start.toNat, count.toNat) := by
  rw [checkReadRegisters, checkRead_fields]
  simp only [registerSpace, maxRegisters]
  by_cases h0 : count.toNat = 0 <;> by_cases h1 : 256 < start.toNat + count.toNat <;> simp [h0, h1]

theorem checkReadCoils_fields (cfg : Cfg) (start count : U16) :
    checkReadCoils cfg (.fields start count) =
      if count.toNat = 0 then
        if cfg.compatReadToEnd = true then
          if 48 ≤ start.toNat then .error .illegalAddress else .ok (start.toNat, 48 - start.toNat)
        else .error .illegalValue
      else if 48 < start.toNat + count.toNat then .error .illegalAddress
      else .ok (start.toNat, count.toNat) := by
  rw [checkReadCoils, checkRead_fields]
  simp only [readToEnd, coilSpace, ← toNat_eq_zero_iff]
  by_cases h0 : count.toNat = 0 <;> by_cases h1 : cfg.compatReadToEnd = true <;> simp [h0, h1] <;> rfl

theorem checkWriteCoil_fields (addr value : U16) :
    checkWriteCoil (.fields addr value) =
      if value ≠ 0x0000#16 ∧ value ≠ 0xFF00#16 then .error .illegalValue
      else if 48 ≤ addr.toNat then .error .illegalAddress
      else .ok (addr.toNat, value == 0xFF00#16) := rfl

theorem checkWriteRegister_fields (addr value : U16) :
    checkWriteRegister (.fields addr value) =
      if 256 ≤ addr.toNat then .error .illegalAddress else .ok (addr.toNat, value) := rfl

theorem checkMulti_fields (space : Nat) (need : Nat → Nat) (start count : U16) (bc : Byte) (values : List Byte) :
    checkMulti space need (.fields start count bc values) =
      if count.toNat = 0 then .error .illegalValue
      else if bc.toNat ≠ need count.toNat then .error .illegalValue
      else if space < start.toNat + count.toNat then .error .illegalAddress
      else .ok (start.toNat, count.toNat) := by
  simp only [checkMulti, checkRange, ← toNat_eq_zero_iff]

/-- What a check lets through lies in the data space. -/
theorem checkRead_le {space : Nat} {x : ReadArgs} {start count : Nat} (h : checkRead space x = .ok (start, count)) :
    start + count ≤ space := by
  cases x with
  | malformed p => simp [checkRead] at h
  | fields a c => rw [checkRead_fields] at h; split_ifs at h; simp at h; omega

theorem checkReadRegisters_le {x : ReadArgs} {start count : Nat} (h : checkReadRegisters x = .ok (start, count)) :
    start + count ≤ 256 ∧ count ≤ 125 := by
  cases x with
  | malformed p => simp [checkReadRegisters, checkRead] at h
  | fields a c => rw [checkReadRegisters_fields] at h; split_ifs at h; simp at h; omega

theorem checkReadCoils_le {cfg : Cfg} {x : ReadArgs} {start count : Nat}
    (h : checkReadCoils cfg x = .ok (start, count)) : start + count ≤ 48 := by
  cases x with
  | malformed p => simp [checkReadCoils, checkRead] at h
  | fields a c => rw [checkReadCoils_fields] at h; split_ifs at h <;> simp at h <;> omega

theorem checkWriteCoil_lt {x : WriteArgs} {i : Nat} {on : Bool} (h : checkWriteCoil x = .ok (i, on)) : i < 48 := by
  cases x with
  | malformed p => simp [checkWriteCoil] at h
  | fields a c => rw [checkWriteCoil_fields] at h; split_ifs at h; simp at h; omega

theorem checkWriteRegister_lt {x : WriteArgs} {i : Nat} {v : U16} (h : checkWriteRegister x = .ok (i, v)) :
    i < 256 := by
  cases x with
  | malformed p => simp [checkWriteRegister] at h
  | fields a c => rw [checkWriteRegister_fields] at h; split_ifs at h; simp at h; omega

theorem checkMulti_le {space : Nat} {need : Nat → Nat} {x : MultiArgs} {start count : Nat}
    (h : checkMulti space need x = .ok (start, count)) : start + count ≤ space := by
  cases x with
  | malformed p => simp [checkMulti] at h
  | fields a c b v => rw [checkMulti_fields] at h; split_ifs at h; simp at h; omega

end Sys2Proof.Machine
end

