-- ==== Sys2Proof/Laws/Bytes.lean ====
section
/-! SUPPORT. The laws of byte order, packed bits and the CRC engine. -/

namespace Sys2Proof

@[simp] theorem hiByte_be16 (h l : Byte) : hiByte (be16 h l) = h := by
  apply BitVec.eq_of_getLsbD_eq
  intro i hi
  simp only [hiByte, be16, BitVec.getLsbD_extractLsb', BitVec.getLsbD_append]
  simp [hi]

@[simp] theorem loByte_be16 (h l : Byte) : loByte (be16 h l) = l := by
  apply BitVec.eq_of_getLsbD_eq
  intro i hi
  simp only [loByte, be16, BitVec.getLsbD_extractLsb', BitVec.getLsbD_append]
  simp [hi]

@[simp] theorem be16_bytes (v : U16) : be16 (hiByte v) (loByte v) = v := by
  apply BitVec.eq_of_getLsbD_eq
  intro i hi
  simp only [hiByte, loByte, be16, BitVec.getLsbD_extractLsb', BitVec.getLsbD_append]
  by_cases h : i < 8
  · simp [h]
  · simp [h, show i - 8 < 8 by omega, show 8 + (i - 8) = i by omega]

@[simp] theorem le16_bytes (v : U16) : le16 (loByte v) (hiByte v) = v := be16_bytes v

/-- `be16(hi, lo) = hi * 256 + lo` (00_scope.md R22). -/
theorem be16_toNat (h l : Byte) : (be16 h l).toNat = h.toNat * 256 + l.toNat := by
  have hl := l.isLt
  simp only [be16, BitVec.toNat_append]
  rw [← Nat.shiftLeft_add_eq_or_of_lt hl]
  simp [Nat.shiftLeft_eq]

theorem le16_toNat (l h : Byte) : (le16 l h).toNat = h.toNat * 256 + l.toNat := be16_toNat h l

/-- The bits of a byte under construction. -/
theorem getLsbD_foldBits (f : Nat → Bool) (n t : Nat) (hn : n ≤ 8) :
    ((List.range n).foldl (fun acc t => if f t then acc ||| (1#8 <<< t) else acc) 0#8).getLsbD t =
      (decide (t < n) && f t) := by
  induction n with
  | zero => simp
  | succ n ih =>
    have ih := ih (by omega)
    have hbit : (1#8 <<< n).getLsbD t = decide (t = n) := by
      rw [BitVec.getLsbD_shiftLeft]
      by_cases h : t = n
      · subst h; simp; omega
      · by_cases h2 : t < n
        · simp [h2, h]
        · simp [h, h2, BitVec.getLsbD_one, show t - n ≠ 0 by omega]
    have hlt : t ≠ n → decide (t < n + 1) = decide (t < n) := fun h => by simp; omega
    rw [List.range_succ, List.foldl_append]
    simp only [List.foldl_cons, List.foldl_nil]
    by_cases h : t = n
    · subst h
      split <;> simp_all
    · split
      · rw [BitVec.getLsbD_or, ih, hbit, hlt h]; simp [h]
      · rw [ih, hlt h]

/-- Bit `t` of the byte with bits `f`. -/
@[simp] theorem getLsbD_byteOfBits (f : Nat → Bool) (t : Nat) :
    (byteOfBits f).getLsbD t = (decide (t < 8) && f t) :=
  getLsbD_foldBits f 8 t (by omega)

@[simp] theorem length_packBits (v : List Bool) : (packBits v).length = packedLength v.length := by
  simp [packBits]

@[simp] theorem length_packRegs (v : List U16) : (packRegs v).length = 2 * v.length := by
  induction v with
  | nil => rfl
  | cons r v ih => simp only [packRegs, List.flatMap_cons] at ih ⊢; simp [ih]; omega

/-- Packing then unpacking gives the run back, and the unused high bits are 0 (43_functions.md R242). -/
theorem unpackBit_packBits (v : List Bool) (j : Nat) : unpackBit (packBits v) j = v.getD j false := by
  have hmod := Nat.mod_lt j (show 8 > 0 by omega)
  have hdiv : 8 * (j / 8) + j % 8 = j := Nat.div_add_mod j 8
  unfold unpackBit packBits packedLength
  rw [List.getD_eq_getElem?_getD, List.getElem?_map]
  by_cases h : j / 8 < (v.length + 7) / 8
  · rw [List.getElem?_range h, Option.map_some, Option.getD_some, getLsbD_byteOfBits, hdiv]
    simp [hmod]
  · have hl : v.length ≤ j := by omega
    rw [List.getElem?_eq_none (by simpa using h)]
    simp [hl]

/-- The higher-order byte as a number (30_encoding.md R109). -/
theorem hiByte_toNat (v : U16) : (hiByte v).toNat = v.toNat / 256 := by
  have := v.isLt
  simp [hiByte, BitVec.extractLsb'_toNat, Nat.shiftRight_eq_div_pow]; omega

/-- The lower-order byte as a number (30_encoding.md R109). -/
theorem loByte_toNat (v : U16) : (loByte v).toNat = v.toNat % 256 := by
  simp [loByte, BitVec.extractLsb'_toNat]

/-- The two bytes of register `j` of a packed run. -/
theorem packRegs_getD (f : Nat → U16) {n j : Nat} (h : j < n) :
    (packRegs ((List.range n).map f)).getD (2 * j) 0#8 = hiByte (f j) ∧
      (packRegs ((List.range n).map f)).getD (2 * j + 1) 0#8 = loByte (f j) := by
  induction n with
  | zero => omega
  | succ n ih =>
    have hlen : (packRegs ((List.range n).map f)).length = 2 * n := by simp
    simp only [List.range_succ, List.map_append, packRegs, List.flatMap_append] at *
    simp only [List.getD_eq_getElem?_getD, List.getElem?_append, hlen] at *
    by_cases hj : j < n
    · simp only [show 2 * j < 2 * n by omega, show 2 * j + 1 < 2 * n by omega, if_true]; exact ih hj
    · obtain rfl : j = n := by omega
      simp

/-- Item `j` of a run of computed items. -/
theorem getD_map_range (f : Nat → Bool) (n j : Nat) :
    ((List.range n).map f).getD j false = (decide (j < n) && f j) := by
  by_cases h : j < n <;> simp [h]

end Sys2Proof
end

