-- ==== Sys2Proof/Laws/Crc.lean ====
section
/-! SUPPORT. The laws of the CRC engine (40_crc.md). -/

namespace Sys2Proof

theorem crc16_append (d e : List Byte) : crc16 (d ++ e) = e.foldl crcStep (crc16 d) := by
  simp [crc16]

@[simp] theorem length_appendCrc (d : List Byte) : (appendCrc d).length = d.length + 2 := by
  simp [appendCrc]

/-- `verify` of a sequence given with its last two bytes apart. -/
theorem verify_concat (d : List Byte) (lo hi : Byte) :
    verify (d ++ [lo, hi]) = (decide (2 ≤ d.length) && le16 lo hi == crc16 d) := by
  by_cases h : 2 ≤ d.length
  · simp [verify, h, show ¬ d.length + 2 < 4 by omega]
  · simp [verify, h, show d.length + 2 < 4 by omega]

/-- A sequence of two bytes or more is some bytes and its last two. -/
theorem exists_concat_of_length {f : List Byte} (h : 2 ≤ f.length) : ∃ d lo hi, f = d ++ [lo, hi] := by
  refine ⟨f.take (f.length - 2), f[f.length - 2], f[f.length - 1], ?_⟩
  conv_lhs => rw [← List.take_append_drop (f.length - 2) f]
  congr 1
  have h1 : f.length - 2 + 1 = f.length - 1 := by omega
  have h2 : f.length - 1 + 1 = f.length := by omega
  rw [List.drop_eq_getElem_cons (by omega), h1, List.drop_eq_getElem_cons (by omega), h2, List.drop_length]

theorem length_of_verify {f : List Byte} (h : verify f = true) : 4 ≤ f.length := by
  by_contra hc
  simp [verify, show f.length < 4 by omega] at h

/-- A CRC-valid frame is the CRC-appended form of its body (30_encoding.md R100). -/
theorem appendCrc_of_verify {f : List Byte} (h : verify f = true) :
    f = appendCrc (f.take (f.length - 2)) := by
  obtain ⟨d, lo, hi, rfl⟩ := exists_concat_of_length (f := f) (by have := length_of_verify h; omega)
  rw [verify_concat] at h
  simp only [Bool.and_eq_true, beq_iff_eq] at h
  simp [appendCrc, ← h.2, le16]
  exact ⟨(loByte_be16 hi lo).symm, (hiByte_be16 hi lo).symm⟩

theorem crcShift_xor (a b : U16) : crcShift (a ^^^ b) = crcShift a ^^^ crcShift b := by
  unfold crcShift
  rw [BitVec.getLsbD_xor, BitVec.ushiftRight_xor_distrib]
  cases a.getLsbD 0 <;> cases b.getLsbD 0 <;> simp [BitVec.xor_assoc, BitVec.xor_comm]
  rw [← BitVec.xor_assoc (b >>> 1), BitVec.xor_comm (b >>> 1) (a >>> 1), BitVec.xor_assoc]

/-- One shift loses nothing: the generator's top bit records the bit shifted out. -/
theorem crcShift_eq_zero {a : U16} (h : crcShift a = 0#16) : a = 0#16 := by
  unfold crcShift at h
  split at h
  · have := congrArg (BitVec.getLsbD · 15) h
    simp at this
  · rename_i h0
    apply BitVec.eq_of_getLsbD_eq
    intro i hi
    cases i with
    | zero => simpa using h0
    | succ i => simpa [BitVec.getLsbD_ushiftRight, Nat.add_comm] using congrArg (BitVec.getLsbD · i) h

theorem iterate_crcShift_xor (n : Nat) (a b : U16) :
    crcShift^[n] (a ^^^ b) = crcShift^[n] a ^^^ crcShift^[n] b := by
  induction n generalizing a b with
  | zero => rfl
  | succ n ih => simp [Function.iterate_succ, crcShift_xor, ih]

theorem iterate_crcShift_eq_zero (n : Nat) {a : U16} (h : crcShift^[n] a = 0#16) : a = 0#16 := by
  induction n generalizing a with
  | zero => exact h
  | succ n ih => exact crcShift_eq_zero (ih h)

/-- Two CRC registers that agree after the same byte agreed before it. -/
theorem crcStep_injective (b : Byte) {c c' : U16} (h : crcStep c b = crcStep c' b) : c = c' := by
  have hz : crcShift^[8] (c ^^^ c') = 0#16 := by
    have hx : c ^^^ c' = (c ^^^ b.zeroExtend 16) ^^^ (c' ^^^ b.zeroExtend 16) := by
      rw [BitVec.xor_assoc, BitVec.xor_comm c' _, ← BitVec.xor_assoc _ _ c']
      simp
    rw [hx, iterate_crcShift_xor]
    simpa [crcStep] using h
  have := iterate_crcShift_eq_zero 8 hz
  simpa using this

end Sys2Proof
end

