-- ==== Sys2Proof/Laws/Decode.lean ====
section
/-! SUPPORT. What the decoder and the encoder do, format by format, and what one frame decodes to. -/

namespace Sys2Proof

theorem decodeRead_encodeRead {x : ReadArgs} (h : x.wf = true) : decodeRead (encodeRead x) = x := by
  cases x with
  | fields start count => simp [decodeRead, encodeRead]
  | malformed p =>
    simp only [ReadArgs.wf, bne_iff_ne, ne_eq] at h
    unfold decodeRead encodeRead
    split
    · simp_all
    · rfl

theorem encodeRead_decodeRead (p : List Byte) : encodeRead (decodeRead p) = p := by
  unfold decodeRead
  split <;> simp [encodeRead]

theorem wf_decodeRead (p : List Byte) : (decodeRead p).wf = true := by
  unfold decodeRead
  split
  · rfl
  · rename_i h
    simp only [ReadArgs.wf, bne_iff_ne, ne_eq, List.length_eq_succ_iff]
    rintro ⟨a, t, rfl, b, u, rfl, c, v, rfl, d, w, rfl, hw⟩
    rw [List.length_eq_zero_iff.1 hw] at h
    exact h _ _ _ _ rfl

theorem decodeWrite_encodeWrite {x : WriteArgs} (h : x.wf = true) : decodeWrite (encodeWrite x) = x := by
  cases x with
  | fields addr value => simp [decodeWrite, encodeWrite]
  | malformed p =>
    simp only [WriteArgs.wf, bne_iff_ne, ne_eq] at h
    unfold decodeWrite encodeWrite
    split
    · simp_all
    · rfl

theorem encodeWrite_decodeWrite (p : List Byte) : encodeWrite (decodeWrite p) = p := by
  unfold decodeWrite
  split <;> simp [encodeWrite]

theorem wf_decodeWrite (p : List Byte) : (decodeWrite p).wf = true := by
  unfold decodeWrite
  split
  · rfl
  · rename_i h
    simp only [WriteArgs.wf, bne_iff_ne, ne_eq, List.length_eq_succ_iff]
    rintro ⟨a, t, rfl, b, u, rfl, c, v, rfl, d, w, rfl, hw⟩
    rw [List.length_eq_zero_iff.1 hw] at h
    exact h _ _ _ _ rfl

theorem decodeMulti_encodeMulti {x : MultiArgs} (h : x.wf = true) : decodeMulti (encodeMulti x) = x := by
  cases x with
  | fields start count bc values =>
    simp only [MultiArgs.wf, beq_iff_eq] at h
    simp [decodeMulti, encodeMulti, h]
  | malformed p =>
    match p, h with
    | s1 :: s0 :: c1 :: c0 :: bc :: v, h =>
      have hne : v.length ≠ bc.toNat := by
        simp [MultiArgs.wf] at h
        omega
      simp [decodeMulti, encodeMulti, hne]
    | [], _ | [_], _ | [_, _], _ | [_, _, _], _ | [_, _, _, _], _ => rfl

theorem encodeMulti_decodeMulti (p : List Byte) : encodeMulti (decodeMulti p) = p := by
  unfold decodeMulti
  split
  · split <;> simp [encodeMulti]
  · rfl

theorem wf_decodeMulti (p : List Byte) : (decodeMulti p).wf = true := by
  unfold decodeMulti
  split
  · split
    · simpa [MultiArgs.wf] using ‹_›
    · simp [MultiArgs.wf]; omega
  · rename_i h
    simp only [MultiArgs.wf, Bool.or_eq_true, decide_eq_true_eq, bne_iff_ne]
    left
    by_contra hc
    match p, hc with
    | s1 :: s0 :: c1 :: c0 :: bc :: v, _ => exact h _ _ _ _ _ _ rfl
    | [], hc | [_], hc | [_, _], hc | [_, _, _], hc | [_, _, _, _], hc => simp at hc

/-- The function-code map reads back what the encoder wrote. -/
theorem decodeRequest_parts {i : Instr} (h : i.wf = true) :
    decodeRequest i.address i.functionCode i.payload = i := by
  cases i with
  | illegalFunction a fc p =>
    simp only [Instr.wf, supportedFunctions, Bool.not_eq_true', List.contains_eq_mem, List.mem_cons,
      List.not_mem_nil, or_false, decide_eq_false_iff_not, not_or] at h
    simp only [decodeRequest, Instr.address, Instr.functionCode, Instr.payload, h, if_false]
  | readCoils a x | readDiscreteInputs a x | readHoldingRegisters a x | readInputRegisters a x =>
    simp [decodeRequest, Instr.address, Instr.functionCode, Instr.payload, decodeRead_encodeRead (x := x) h]
  | writeSingleCoil a x | writeSingleRegister a x =>
    simp [decodeRequest, Instr.address, Instr.functionCode, Instr.payload, decodeWrite_encodeWrite (x := x) h]
  | writeMultipleCoils a x | writeMultipleRegisters a x =>
    simp [decodeRequest, Instr.address, Instr.functionCode, Instr.payload, decodeMulti_encodeMulti (x := x) h]

/-- A request's instruction is well formed and has the request's bytes. -/
theorem decodeRequest_spec (a fc : Byte) (p : List Byte) :
    (decodeRequest a fc p).wf = true ∧ encodeBody (decodeRequest a fc p) = a :: fc :: p := by
  have hr := encodeRead_decodeRead p
  have hw := encodeWrite_decodeWrite p
  have hm := encodeMulti_decodeMulti p
  unfold decodeRequest
  repeat' split
  all_goals
    simp_all [Instr.wf, encodeBody, Instr.address, Instr.functionCode, Instr.payload, wf_decodeRead, wf_decodeWrite,
      wf_decodeMulti, supportedFunctions]

/-- What a frame decodes to, by its body. -/
theorem decode_eq_ok_iff (f : List Byte) (i : Instr) :
    decode f = .ok i ↔ verify f = true ∧ ∃ a fc p, f = appendCrc (a :: fc :: p) ∧ i = decodeRequest a fc p := by
  unfold decode
  split
  · rename_i h
    have hf := appendCrc_of_verify h
    have hl := length_of_verify h
    generalize f.take (f.length - 2) = d at *
    subst hf
    match d, hl with
    | a :: fc :: p, _ =>
      simp only [Except.ok.injEq, h, true_and]
      constructor
      · rintro rfl; exact ⟨a, fc, p, rfl, rfl⟩
      · rintro ⟨a', fc', p', he, rfl⟩
        have := List.append_inj_left' he (by simp)
        simp_all
    | [], hl | [_], hl => simp at hl
  · split <;> simp_all

/-- A prefix shorter than 4 bytes is no frame. -/
theorem decode_not_ok {f : List Byte} (h : verify f = false) (i : Instr) : decode f ≠ .ok i := by
  intro he
  have := ((decode_eq_ok_iff f i).1 he).1
  simp_all

end Sys2Proof
end

