-- ==== Sys2Proof/Laws/Fetch.lean ====
section
/-! SUPPORT. What `fetch` answers: the first prefix, by length, that decodes (41_synchronizer.md R175). -/

namespace Sys2Proof

/-- The answer of the search at one length. -/
theorem fetch_some_spec {buf : List Byte} {i : Instr} {rest : List Byte} (h : fetch buf = some (i, rest)) :
    ∃ l, 4 ≤ l ∧ l ≤ buf.length ∧ (∀ m, 4 ≤ m → m < l → verify (buf.take m) = false) ∧
      decode (buf.take l) = .ok i ∧ rest = buf.drop l := by
  obtain ⟨l₁, l, l₂, hr, hl, hn⟩ := List.findSome?_eq_some_iff.1 h
  have hmem : l ∈ List.range' 4 (buf.length - 3) := by rw [hr]; simp
  rw [List.mem_range'_1] at hmem
  have hd : decode (buf.take l) = .ok i ∧ rest = buf.drop l := by
    split at hl
    · simp_all
    · simp at hl
  refine ⟨l, hmem.1, by omega, fun m hm hml => ?_, hd⟩
  have hmr : m ∈ List.range' 4 (buf.length - 3) := by rw [List.mem_range'_1]; omega
  have hm1 : m ∈ l₁ := by
    have hs : (List.range' 4 (buf.length - 3)).Pairwise (· < ·) := List.pairwise_lt_range'
    rw [hr] at hs hmr
    rw [List.pairwise_append, List.pairwise_cons] at hs
    rcases List.mem_append.1 hmr with h1 | h2
    · exact h1
    · rcases List.mem_cons.1 h2 with rfl | h2
      · omega
      · have := hs.2.1.1 m h2; omega
  have hnm := hn m hm1
  by_contra hv
  rw [Bool.not_eq_false] at hv
  have hlen := length_of_verify hv
  obtain ⟨j, hj⟩ : ∃ j, decode (buf.take m) = .ok j := by
    have hf := appendCrc_of_verify hv
    generalize (buf.take m).take ((buf.take m).length - 2) = d at hf
    have hd2 : 2 ≤ d.length := by rw [hf, length_appendCrc] at hlen; omega
    match d, hd2 with
    | a :: fc :: p, _ => exact ⟨_, (decode_eq_ok_iff _ _).2 ⟨hv, a, fc, p, hf, rfl⟩⟩
  rw [hj] at hnm
  simp at hnm

/-- Nothing is fetched only where no prefix is CRC-valid. -/
theorem fetch_none_spec {buf : List Byte} (h : fetch buf = none) (l : Nat) (h4 : 4 ≤ l) (hl : l ≤ buf.length) :
    verify (buf.take l) = false := by
  by_contra hv
  rw [Bool.not_eq_false] at hv
  have hmem : l ∈ List.range' 4 (buf.length - 3) := by rw [List.mem_range'_1]; omega
  have hn := List.findSome?_eq_none_iff.1 h l hmem
  have hf := appendCrc_of_verify hv
  have hlen := length_of_verify hv
  generalize (buf.take l).take ((buf.take l).length - 2) = d at hf
  have hd2 : 2 ≤ d.length := by rw [hf, length_appendCrc] at hlen; omega
  match d, hd2 with
  | a :: fc :: p, _ =>
    rw [(decode_eq_ok_iff _ _).2 ⟨hv, a, fc, p, hf, rfl⟩] at hn
    simp at hn

/-- What a fetch leaves is a proper rest of the buffer, at least 4 bytes shorter. -/
theorem fetch_rest {buf : List Byte} {i : Instr} {rest : List Byte} (h : fetch buf = some (i, rest)) :
    rest <:+ buf ∧ rest.length + 4 ≤ buf.length ∧ i.wf = true := by
  obtain ⟨l, h4, hl, -, hd, rfl⟩ := fetch_some_spec h
  obtain ⟨-, a, fc, p, -, rfl⟩ := (decode_eq_ok_iff _ _).1 hd
  exact ⟨List.drop_suffix l buf, by simp; omega, (decodeRequest_spec a fc p).1⟩

/-- A buffer without a frame at its front is no frame itself. -/
theorem verify_of_fetch_none {buf : List Byte} (h : fetch buf = none) (hl : 4 ≤ buf.length) : verify buf = false := by
  simpa using fetch_none_spec h buf.length hl (le_refl _)

/-- An encoded instruction, no shorter prefix of which is CRC-valid, is what is fetched (41_synchronizer.md R176). -/
theorem fetch_encode_append {i : Instr} (hi : i.wf = true) (more : List Byte)
    (h : ∀ m, 4 ≤ m → m < (encode i).length → verify ((encode i).take m) = false) :
    fetch (encode i ++ more) = some (i, more) := by
  have hv : verify (encode i) = true := by
    rw [encode, appendCrc, verify_concat]
    simp [encodeBody]
  have hl := length_of_verify hv
  have hd : decode (encode i) = .ok i := by
    rw [decode_eq_ok_iff]
    exact ⟨hv, _, _, _, rfl, (decodeRequest_parts hi).symm⟩
  cases hf : fetch (encode i ++ more) with
  | none =>
    have hn := fetch_none_spec hf (encode i).length hl (by simp)
    simp [hv] at hn
  | some p =>
    obtain ⟨j, rest⟩ := p
    obtain ⟨l, h4, hle, hm, hdl, rfl⟩ := fetch_some_spec hf
    obtain rfl : l = (encode i).length := by
      rcases Nat.lt_trichotomy l (encode i).length with hlt | he | hgt
      · rw [List.take_append_of_le_length (by omega)] at hdl
        exact absurd hdl (decode_not_ok (h l h4 hlt) j)
      · exact he
      · have hn := hm _ hl hgt
        simp [hv] at hn
    simp [hd] at hdl
    simp [hdl]

end Sys2Proof
end

