-- ==== Sys2Proof/Laws/State.lean ====
section
/-! SUPPORT. One lemma per field per update of the state, so that no later proof unfolds a record update. -/

namespace Sys2Proof.Machine

variable (s : State)

@[simp] theorem emit_phase (o : Output) : (emit o s).phase = s.phase := rfl
@[simp] theorem emit_buf (o : Output) : (emit o s).buf = s.buf := rfl
@[simp] theorem emit_dev (o : Output) : (emit o s).dev = s.dev := rfl
@[simp] theorem emit_stats (o : Output) : (emit o s).stats = s.stats := rfl
@[simp] theorem emit_ring (o : Output) : (emit o s).ring = s.ring := rfl
@[simp] theorem emit_cfg (o : Output) : (emit o s).cfg = s.cfg := rfl
@[simp] theorem emit_inputs (o : Output) : (emit o s).inputs = s.inputs := rfl
@[simp] theorem emit_outputs (o : Output) : (emit o s).outputs = s.outputs ++ [o] := rfl

@[simp] theorem addTo_phase (c : Counter) (n : Nat) : (addTo c n s).phase = s.phase := rfl
@[simp] theorem addTo_buf (c : Counter) (n : Nat) : (addTo c n s).buf = s.buf := rfl
@[simp] theorem addTo_dev (c : Counter) (n : Nat) : (addTo c n s).dev = s.dev := rfl
@[simp] theorem addTo_stats (c : Counter) (n : Nat) : (addTo c n s).stats = s.stats.put c (sat s.cfg (s.stats.get c + n)) := rfl
@[simp] theorem addTo_ring (c : Counter) (n : Nat) : (addTo c n s).ring = s.ring := rfl
@[simp] theorem addTo_cfg (c : Counter) (n : Nat) : (addTo c n s).cfg = s.cfg := rfl
@[simp] theorem addTo_inputs (c : Counter) (n : Nat) : (addTo c n s).inputs = s.inputs := rfl
@[simp] theorem addTo_outputs (c : Counter) (n : Nat) : (addTo c n s).outputs = s.outputs := rfl

@[simp] theorem bump_phase (c : Counter) : (bump c s).phase = s.phase := rfl
@[simp] theorem bump_buf (c : Counter) : (bump c s).buf = s.buf := rfl
@[simp] theorem bump_dev (c : Counter) : (bump c s).dev = s.dev := rfl
@[simp] theorem bump_stats (c : Counter) : (bump c s).stats = s.stats.put c (sat s.cfg (s.stats.get c + 1)) := rfl
@[simp] theorem bump_ring (c : Counter) : (bump c s).ring = s.ring := rfl
@[simp] theorem bump_cfg (c : Counter) : (bump c s).cfg = s.cfg := rfl
@[simp] theorem bump_inputs (c : Counter) : (bump c s).inputs = s.inputs := rfl
@[simp] theorem bump_outputs (c : Counter) : (bump c s).outputs = s.outputs := rfl

@[simp] theorem record_phase (kind : ErrKind) (raw : List Byte) (e : Option U16) (o : Option Nat) : (record kind raw e o s).phase = s.phase := rfl
@[simp] theorem record_buf (kind : ErrKind) (raw : List Byte) (e : Option U16) (o : Option Nat) : (record kind raw e o s).buf = s.buf := rfl
@[simp] theorem record_dev (kind : ErrKind) (raw : List Byte) (e : Option U16) (o : Option Nat) : (record kind raw e o s).dev = s.dev := rfl
@[simp] theorem record_stats (kind : ErrKind) (raw : List Byte) (e : Option U16) (o : Option Nat) : (record kind raw e o s).stats = s.stats := rfl
@[simp] theorem record_ring (kind : ErrKind) (raw : List Byte) (e : Option U16) (o : Option Nat) : (record kind raw e o s).ring = pushRecord s.ring { kind := kind, raw := raw, expected := e, offset := o } := rfl
@[simp] theorem record_cfg (kind : ErrKind) (raw : List Byte) (e : Option U16) (o : Option Nat) : (record kind raw e o s).cfg = s.cfg := rfl
@[simp] theorem record_inputs (kind : ErrKind) (raw : List Byte) (e : Option U16) (o : Option Nat) : (record kind raw e o s).inputs = s.inputs := rfl
@[simp] theorem record_outputs (kind : ErrKind) (raw : List Byte) (e : Option U16) (o : Option Nat) : (record kind raw e o s).outputs = s.outputs ++ [.errorOccurred { kind := kind, raw := raw, expected := e, offset := o }] := rfl

@[simp] theorem setDevice_phase (k : Nat) (d : Device) : (setDevice k d s).phase = s.phase := rfl
@[simp] theorem setDevice_buf (k : Nat) (d : Device) : (setDevice k d s).buf = s.buf := rfl
@[simp] theorem setDevice_dev (k : Nat) (d : Device) : (setDevice k d s).dev = s.dev.set k d := rfl
@[simp] theorem setDevice_stats (k : Nat) (d : Device) : (setDevice k d s).stats = s.stats := rfl
@[simp] theorem setDevice_ring (k : Nat) (d : Device) : (setDevice k d s).ring = s.ring := rfl
@[simp] theorem setDevice_cfg (k : Nat) (d : Device) : (setDevice k d s).cfg = s.cfg := rfl
@[simp] theorem setDevice_inputs (k : Nat) (d : Device) : (setDevice k d s).inputs = s.inputs := rfl
@[simp] theorem setDevice_outputs (k : Nat) (d : Device) : (setDevice k d s).outputs = s.outputs := rfl

@[simp] theorem resyncStatus_phase (k : Nat) : (resyncStatus k s).phase = s.phase := rfl
@[simp] theorem resyncStatus_buf (k : Nat) : (resyncStatus k s).buf = s.buf := rfl
@[simp] theorem resyncStatus_stats (k : Nat) : (resyncStatus k s).stats = s.stats := rfl
@[simp] theorem resyncStatus_ring (k : Nat) : (resyncStatus k s).ring = s.ring := rfl
@[simp] theorem resyncStatus_cfg (k : Nat) : (resyncStatus k s).cfg = s.cfg := rfl
@[simp] theorem resyncStatus_inputs (k : Nat) : (resyncStatus k s).inputs = s.inputs := rfl
@[simp] theorem resyncStatus_outputs (k : Nat) : (resyncStatus k s).outputs = s.outputs := rfl

@[simp] theorem setHoldingReg_phase (k i : Nat) (v : U16) : (setHoldingReg k i v s).phase = s.phase := rfl
@[simp] theorem setHoldingReg_buf (k i : Nat) (v : U16) : (setHoldingReg k i v s).buf = s.buf := rfl
@[simp] theorem setHoldingReg_stats (k i : Nat) (v : U16) : (setHoldingReg k i v s).stats = s.stats := rfl
@[simp] theorem setHoldingReg_ring (k i : Nat) (v : U16) : (setHoldingReg k i v s).ring = s.ring := rfl
@[simp] theorem setHoldingReg_cfg (k i : Nat) (v : U16) : (setHoldingReg k i v s).cfg = s.cfg := rfl
@[simp] theorem setHoldingReg_inputs (k i : Nat) (v : U16) : (setHoldingReg k i v s).inputs = s.inputs := rfl
@[simp] theorem setHoldingReg_outputs (k i : Nat) (v : U16) : (setHoldingReg k i v s).outputs = s.outputs := rfl

@[simp] theorem setCoilCell_phase (k i : Nat) (v : Bool) : (setCoilCell k i v s).phase = s.phase := rfl
@[simp] theorem setCoilCell_buf (k i : Nat) (v : Bool) : (setCoilCell k i v s).buf = s.buf := rfl
@[simp] theorem setCoilCell_stats (k i : Nat) (v : Bool) : (setCoilCell k i v s).stats = s.stats := rfl
@[simp] theorem setCoilCell_ring (k i : Nat) (v : Bool) : (setCoilCell k i v s).ring = s.ring := rfl
@[simp] theorem setCoilCell_cfg (k i : Nat) (v : Bool) : (setCoilCell k i v s).cfg = s.cfg := rfl
@[simp] theorem setCoilCell_inputs (k i : Nat) (v : Bool) : (setCoilCell k i v s).inputs = s.inputs := rfl
@[simp] theorem setCoilCell_outputs (k i : Nat) (v : Bool) : (setCoilCell k i v s).outputs = s.outputs := rfl

@[simp] theorem send_phase (r : List Byte) : (send r s).phase = s.phase := rfl
@[simp] theorem send_buf (r : List Byte) : (send r s).buf = s.buf := rfl
@[simp] theorem send_dev (r : List Byte) : (send r s).dev = s.dev := rfl
@[simp] theorem send_ring (r : List Byte) : (send r s).ring = s.ring := rfl
@[simp] theorem send_cfg (r : List Byte) : (send r s).cfg = s.cfg := rfl
@[simp] theorem send_inputs (r : List Byte) : (send r s).inputs = s.inputs := rfl

@[simp] theorem takeException_phase (a fc : Byte) (e : ExceptionCode) : (takeException a fc e s).phase = s.phase := rfl
@[simp] theorem takeException_buf (a fc : Byte) (e : ExceptionCode) : (takeException a fc e s).buf = s.buf := rfl
@[simp] theorem takeException_dev (a fc : Byte) (e : ExceptionCode) : (takeException a fc e s).dev = s.dev := rfl
@[simp] theorem takeException_ring (a fc : Byte) (e : ExceptionCode) : (takeException a fc e s).ring = s.ring := rfl
@[simp] theorem takeException_cfg (a fc : Byte) (e : ExceptionCode) : (takeException a fc e s).cfg = s.cfg := rfl
@[simp] theorem takeException_inputs (a fc : Byte) (e : ExceptionCode) : (takeException a fc e s).inputs = s.inputs := rfl

@[simp] theorem receiveFrame_phase (i : Instr) : (receiveFrame i s).phase = s.phase := rfl
@[simp] theorem receiveFrame_buf (i : Instr) : (receiveFrame i s).buf = s.buf := rfl
@[simp] theorem receiveFrame_dev (i : Instr) : (receiveFrame i s).dev = s.dev := rfl
@[simp] theorem receiveFrame_ring (i : Instr) : (receiveFrame i s).ring = s.ring := rfl
@[simp] theorem receiveFrame_cfg (i : Instr) : (receiveFrame i s).cfg = s.cfg := rfl
@[simp] theorem receiveFrame_inputs (i : Instr) : (receiveFrame i s).inputs = s.inputs := rfl
@[simp] theorem receiveFrame_outputs (i : Instr) : (receiveFrame i s).outputs = s.outputs ++ [.frameReceived (encode i) true] := rfl

@[simp] theorem countDispatched_phase (k fidx : Nat) : (countDispatched k fidx s).phase = s.phase := rfl
@[simp] theorem countDispatched_buf (k fidx : Nat) : (countDispatched k fidx s).buf = s.buf := rfl
@[simp] theorem countDispatched_dev (k fidx : Nat) : (countDispatched k fidx s).dev = s.dev := rfl
@[simp] theorem countDispatched_ring (k fidx : Nat) : (countDispatched k fidx s).ring = s.ring := rfl
@[simp] theorem countDispatched_cfg (k fidx : Nat) : (countDispatched k fidx s).cfg = s.cfg := rfl
@[simp] theorem countDispatched_inputs (k fidx : Nat) : (countDispatched k fidx s).inputs = s.inputs := rfl
@[simp] theorem countDispatched_outputs (k fidx : Nat) : (countDispatched k fidx s).outputs = s.outputs := rfl

@[simp] theorem dropFrame_phase (rest : List Byte) : (dropFrame rest s).phase = if rest = [] then .idle else .extracting := rfl
@[simp] theorem dropFrame_buf (rest : List Byte) : (dropFrame rest s).buf = rest := rfl
@[simp] theorem dropFrame_dev (rest : List Byte) : (dropFrame rest s).dev = s.dev := rfl
@[simp] theorem dropFrame_stats (rest : List Byte) : (dropFrame rest s).stats = s.stats := rfl
@[simp] theorem dropFrame_ring (rest : List Byte) : (dropFrame rest s).ring = s.ring := rfl
@[simp] theorem dropFrame_cfg (rest : List Byte) : (dropFrame rest s).cfg = s.cfg := rfl
@[simp] theorem dropFrame_inputs (rest : List Byte) : (dropFrame rest s).inputs = s.inputs := rfl
@[simp] theorem dropFrame_outputs (rest : List Byte) : (dropFrame rest s).outputs = s.outputs := rfl

@[simp] theorem clearStats_phase : (clearStats s).phase = s.phase := rfl
@[simp] theorem clearStats_buf : (clearStats s).buf = s.buf := rfl
@[simp] theorem clearStats_dev : (clearStats s).dev = s.dev := rfl
@[simp] theorem clearStats_stats : (clearStats s).stats = Stats.zero s.stats.perDevice.length := rfl
@[simp] theorem clearStats_ring : (clearStats s).ring = [] := rfl
@[simp] theorem clearStats_cfg : (clearStats s).cfg = s.cfg := rfl
@[simp] theorem clearStats_inputs : (clearStats s).inputs = s.inputs := rfl
@[simp] theorem clearStats_outputs : (clearStats s).outputs = s.outputs := rfl

@[simp] theorem snapshot_phase : (snapshot s).phase = s.phase := rfl
@[simp] theorem snapshot_buf : (snapshot s).buf = s.buf := rfl
@[simp] theorem snapshot_dev : (snapshot s).dev = s.dev := rfl
@[simp] theorem snapshot_stats : (snapshot s).stats = s.stats := rfl
@[simp] theorem snapshot_ring : (snapshot s).ring = s.ring := rfl
@[simp] theorem snapshot_cfg : (snapshot s).cfg = s.cfg := rfl
@[simp] theorem snapshot_inputs : (snapshot s).inputs = s.inputs := rfl
@[simp] theorem snapshot_outputs : (snapshot s).outputs = s.outputs ++ [.statisticsSnapshot s.stats s.ring] := rfl

@[simp] theorem stop_phase : (stop s).phase = .stopped := rfl
@[simp] theorem stop_buf : (stop s).buf = s.buf := rfl
@[simp] theorem stop_dev : (stop s).dev = s.dev := rfl
@[simp] theorem stop_stats : (stop s).stats = s.stats := rfl
@[simp] theorem stop_ring : (stop s).ring = s.ring := rfl
@[simp] theorem stop_cfg : (stop s).cfg = s.cfg := rfl
@[simp] theorem stop_inputs : (stop s).inputs = s.inputs := rfl
@[simp] theorem stop_outputs : (stop s).outputs = s.outputs := rfl

@[simp] theorem overflow_phase : (overflow s).phase = .idle := rfl
@[simp] theorem overflow_buf : (overflow s).buf = [] := rfl
@[simp] theorem overflow_dev : (overflow s).dev = s.dev := rfl
@[simp] theorem overflow_ring : (overflow s).ring = pushRecord s.ring { kind := .framing, raw := s.buf, expected := none, offset := none } := rfl
@[simp] theorem overflow_cfg : (overflow s).cfg = s.cfg := rfl
@[simp] theorem overflow_inputs : (overflow s).inputs = s.inputs := rfl
@[simp] theorem overflow_outputs : (overflow s).outputs = s.outputs ++ [.errorOccurred { kind := .framing, raw := s.buf, expected := none, offset := none }] := rfl

/-- `send` appends the transmission and its event (42_dispatch.md R220). -/
@[simp] theorem send_outputs (r : List Byte) : (send r s).outputs = s.outputs ++ [.tx r, .responseSent r] := by
  simp [send]

@[simp] theorem takeException_outputs (a fc : Byte) (e : ExceptionCode) :
    (takeException a fc e s).outputs = s.outputs ++ [.tx (appendCrc (exceptionBody a fc e)),
      .responseSent (appendCrc (exceptionBody a fc e))] := by
  simp [takeException]

end Sys2Proof.Machine
end

