-- ==== Sys2Proof/Laws/Counters.lean ====
section
/-! SUPPORT. How the counters move (44_statistics.md R301). -/

namespace Sys2Proof.Machine

/-- The counter is one the statistics have. -/
def Counter.InTable (c : Counter) (t : Stats) : Prop :=
  match c with
  | .perDevice k => k < t.perDevice.length
  | .perFunction j => j < 8
  | _ => True

theorem get_put_self {c : Counter} {t : Stats} (h : c.InTable t) (v : Nat) : (t.put c v).get c = v := by
  cases c <;> simp_all [Stats.put, Stats.get, Counter.InTable]

theorem get_put_of_ne {c c' : Counter} (h : c' ≠ c) (t : Stats) (v : Nat) : (t.put c v).get c' = t.get c' := by
  cases c <;> cases c' <;> simp_all [Stats.put, Stats.get]
  · rw [List.getElem?_set_ne (by omega)]
  · rw [Vector.getElem?_setIfInBounds_ne (by omega)]

theorem put_of_not_inTable {c : Counter} {t : Stats} (h : ¬ c.InTable t) (v : Nat) : t.put c v = t := by
  cases c <;> simp_all [Stats.put, Counter.InTable]
  · rw [List.set_eq_of_length_le h]
  · rw [Vector.setIfInBounds_eq_of_size_le (by simpa using h)]

@[simp] theorem put_perDevice_length (c : Counter) (t : Stats) (v : Nat) :
    (t.put c v).perDevice.length = t.perDevice.length := by
  cases c <;> simp [Stats.put]

theorem inTable_put {c c' : Counter} {t : Stats} {v : Nat} : c'.InTable (t.put c v) ↔ c'.InTable t := by
  cases c' <;> simp [Counter.InTable]

@[simp] theorem stat_emit (c : Counter) (o : Output) (s : State) : stat c (emit o s) = stat c s := rfl

@[simp] theorem stat_setDevice (c : Counter) (k : Nat) (d : Device) (s : State) :
    stat c (setDevice k d s) = stat c s := rfl

/-- Every counter after one is moved. -/
theorem stat_addTo (c c' : Counter) (n : Nat) (s : State) (h : c.InTable s.stats) :
    stat c' (addTo c n s) = if c' = c then sat s.cfg (stat c s + n) else stat c' s := by
  split
  · rename_i h'; subst h'; exact get_put_self h _
  · exact get_put_of_ne ‹_› _ _

theorem stat_congr {s t : State} (h : t.stats = s.stats) (c : Counter) : stat c t = stat c s := by
  simp [stat, h]

namespace CountsMoved

variable {d d' : Counter → Nat} {s t u : State}

theorem of_stats_eq (h : t.stats = s.stats) (hd : ∀ c, d c = 0) : CountsMoved d s t := fun c => by
  simp [hd c, stat_congr h]

theorem congr (h : CountsMoved d s t) (hd : ∀ c, d' c = d c) : CountsMoved d' s t := fun c => by
  rw [hd c]; exact h c

theorem trans (h : CountsMoved d s t) (h' : CountsMoved d' t u) (hc : t.cfg = s.cfg) :
    CountsMoved (fun c => d c + d' c) s u := fun c => by
  have h1 := h c
  have h2 := h' c
  rw [hc] at h2
  generalize 2 ^ s.cfg.cntWidth - 1 = m at *
  simp only
  split_ifs at * <;> omega

theorem of_addTo {c : Counter} {n : Nat} (h : c.InTable s.stats) (hn : 0 < n) :
    CountsMoved (fun c' => if c' = c then n else 0) s (addTo c n s) := fun c' => by
  rw [stat_addTo c c' n s h]
  by_cases h1 : c' = c
  · subst h1; simp [sat, show n ≠ 0 by omega]
  · simp [h1]

/-- A move is blind to everything but the counters and the configuration. -/
theorem of_stats_congr {s' t' : State} (h : CountsMoved d s t) (hs : s'.stats = s.stats) (hc : s'.cfg = s.cfg)
    (ht : t'.stats = t.stats) : CountsMoved d s' t' := fun c => by
  rw [stat_congr ht, stat_congr hs, hc]; exact h c

end CountsMoved

/-- A response moves its two counters (42_dispatch.md R220). -/
theorem send_counts (r : List Byte) (s : State) (h : 0 < r.length) :
    CountsMoved (fun c => (if c = .responsesSent then 1 else 0) + (if c = .bytesSent then r.length else 0))
      s (send r s) := by
  have h1 := CountsMoved.of_addTo (s := emit (.tx r) s) (c := .responsesSent) (n := 1) trivial (by omega)
  have h2 := CountsMoved.of_addTo (s := bump .responsesSent (emit (.tx r) s)) (c := .bytesSent) (n := r.length) trivial h
  exact (h1.trans h2 rfl).of_stats_congr rfl rfl rfl

theorem receiveFrame_counts (i : Instr) (s : State) :
    CountsMoved (fun c => if c = .totalRequests then 1 else 0) s (receiveFrame i s) :=
  (CountsMoved.of_addTo (s := emit (.frameReceived (encode i) true) s) (c := .totalRequests) trivial (by omega)).of_stats_congr
    rfl rfl rfl

theorem countDispatched_counts (k fidx : Nat) (s : State) (hk : k < s.stats.perDevice.length) (hf : fidx < 8) :
    CountsMoved (fun c => (if c = .validRequests then 1 else 0) + (if c = .perDevice k then 1 else 0) +
      (if c = .perFunction fidx then 1 else 0)) s (countDispatched k fidx s) := by
  have h1 := CountsMoved.of_addTo (s := s) (c := .validRequests) (n := 1) trivial (by omega)
  have h2 := CountsMoved.of_addTo (s := bump .validRequests s) (c := .perDevice k) (n := 1)
    (by simpa [Counter.InTable] using hk) (by omega)
  have h3 := CountsMoved.of_addTo (s := bump (.perDevice k) (bump .validRequests s)) (c := .perFunction fidx) (n := 1)
    hf (by omega)
  exact (h1.trans h2 rfl).trans h3 rfl

/-- Every counter is 0 after reset and after ClearStats (10_state.md R50, 44_statistics.md R330). -/
theorem get_zero (c : Counter) (n : Nat) : (Stats.zero n).get c = 0 := by
  cases c with
  | perDevice k => by_cases h : k < n <;> simp [Stats.get, Stats.zero, h]
  | perFunction j => by_cases h : j < 8 <;> simp [Stats.get, Stats.zero, h]
  | _ => rfl

end Sys2Proof.Machine
end

