-- ==== Sys2Proof/Laws/Storage.lean ====
section
/-! SUPPORT. Storage cells read after they are written, and what the storage operations leave alone
(10_state.md R36-R41, 43_functions.md R241, R265). -/

namespace Sys2Proof.Machine

variable {s : State} {k k' : Nat}

theorem device_setDevice (h : k < s.dev.length) (d : Device) : device k (setDevice k d s) = d := by
  simp [device, h]

theorem device_setDevice_ne (h : k' ≠ k) (d : Device) : device k' (setDevice k d s) = device k' s := by
  simp [device, List.getElem?_set_ne (Ne.symm h)]

theorem dev_getElem?_setDevice_ne (h : k' ≠ k) (d : Device) : (setDevice k d s).dev[k']? = s.dev[k']? := by
  simp [List.getElem?_set_ne (Ne.symm h)]

@[simp] theorem setDevice_length (d : Device) : (setDevice k d s).dev.length = s.dev.length := by simp

theorem device_congr {t : State} (h : t.dev = s.dev) (k : Nat) : device k t = device k s := by simp [device, h]

/-- A slot the table does not have cannot be written. -/
theorem setDevice_of_le (h : s.dev.length ≤ k) (d : Device) : setDevice k d s = s := by
  simp [setDevice, List.set_eq_of_length_le h]

theorem coil_setCoilCell (hk : k < s.dev.length) {i j : Nat} (hi : i < 48) (v : Bool) :
    coil k j (setCoilCell k i v s) = if j = i then v else coil k j s := by
  unfold coil setCoilCell
  rw [device_setDevice hk]
  simp only [Vector.getElem?_setIfInBounds, hi, if_true]
  split_ifs <;> first | rfl | omega

theorem holdingReg_setHoldingReg (hk : k < s.dev.length) {i j : Nat} (hi : i < 256) (v : U16) :
    holdingReg k j (setHoldingReg k i v s) = if j = i then v else holdingReg k j s := by
  unfold holdingReg setHoldingReg
  rw [device_setDevice hk]
  simp only [Vector.getElem?_setIfInBounds, hi, if_true]
  split_ifs <;> first | rfl | omega

/-- What writing one cell of a slot through `setDevice` leaves alone. -/
theorem OnlyCoilsOf.setCoilCell (k i : Nat) (v : Bool) (s : State) : OnlyCoilsOf k s (setCoilCell k i v s) := by
  refine ⟨by simp [Machine.setCoilCell], fun k' h => dev_getElem?_setDevice_ne h _, ?_⟩
  by_cases hk : k < s.dev.length
  · unfold Machine.setCoilCell; rw [device_setDevice hk]; exact ⟨rfl, rfl, rfl, rfl⟩
  · unfold Machine.setCoilCell; rw [setDevice_of_le (by omega)]; exact ⟨rfl, rfl, rfl, rfl⟩

theorem OnlyHoldingRegsOf.setHoldingReg (k i : Nat) (v : U16) (s : State) :
    OnlyHoldingRegsOf k s (setHoldingReg k i v s) := by
  refine ⟨by simp [Machine.setHoldingReg], fun k' h => dev_getElem?_setDevice_ne h _, ?_⟩
  by_cases hk : k < s.dev.length
  · unfold Machine.setHoldingReg; rw [device_setDevice hk]; exact ⟨rfl, rfl, rfl, rfl⟩
  · unfold Machine.setHoldingReg; rw [setDevice_of_le (by omega)]; exact ⟨rfl, rfl, rfl, rfl⟩

theorem OnlyMirrorOf.resyncStatus (k : Nat) (s : State) : OnlyMirrorOf k s (resyncStatus k s) := by
  refine ⟨by simp [Machine.resyncStatus], fun k' h => dev_getElem?_setDevice_ne h _, ?_⟩
  by_cases hk : k < s.dev.length
  · unfold Machine.resyncStatus; rw [device_setDevice hk]; exact ⟨rfl, rfl, rfl, rfl⟩
  · unfold Machine.resyncStatus; rw [setDevice_of_le (by omega)]; exact ⟨rfl, rfl, rfl, rfl⟩

theorem OnlyCoilsOf.refl (k : Nat) {s t : State} (h : t.dev = s.dev) : OnlyCoilsOf k s t := by
  simp [OnlyCoilsOf, h, device_congr h]

theorem OnlyHoldingRegsOf.refl (k : Nat) {s t : State} (h : t.dev = s.dev) : OnlyHoldingRegsOf k s t := by
  simp [OnlyHoldingRegsOf, h, device_congr h]

theorem OnlyCoilsOf.trans {t u : State} (h : OnlyCoilsOf k s t) (h' : OnlyCoilsOf k t u) : OnlyCoilsOf k s u := by
  obtain ⟨h1, h2, h3, h4, h5, h6⟩ := h
  obtain ⟨g1, g2, g3, g4, g5, g6⟩ := h'
  exact ⟨g1.trans h1, fun k' hk => (g2 k' hk).trans (h2 k' hk), g3.trans h3, g4.trans h4, g5.trans h5, g6.trans h6⟩

theorem OnlyHoldingRegsOf.trans {t u : State} (h : OnlyHoldingRegsOf k s t) (h' : OnlyHoldingRegsOf k t u) :
    OnlyHoldingRegsOf k s u := by
  obtain ⟨h1, h2, h3, h4, h5, h6⟩ := h
  obtain ⟨g1, g2, g3, g4, g5, g6⟩ := h'
  exact ⟨g1.trans h1, fun k' hk => (g2 k' hk).trans (h2 k' hk), g3.trans h3, g4.trans h4, g5.trans h5, g6.trans h6⟩

/-- After a resynchronisation every mirror bit is its coil (10_state.md R37). -/
theorem statusBit_resyncStatus (hk : k < s.dev.length) {i : Nat} (hi : i < 48) :
    statusBit k i (resyncStatus k s) = coil k i s := by
  have hmod := Nat.mod_lt i (show 8 > 0 by omega)
  have hdiv : 8 * (i / 8) + i % 8 = i := Nat.div_add_mod i 8
  have hj : i / 8 = 0 ∨ i / 8 = 1 ∨ i / 8 = 2 ∨ i / 8 = 3 ∨ i / 8 = 4 ∨ i / 8 = 5 := by omega
  have hb : statusByte k (i / 8) (resyncStatus k s) = mirrorByte k s (i / 8) := by
    unfold statusByte resyncStatus
    rw [device_setDevice hk]
    rcases hj with h | h | h | h | h | h <;> rw [h] <;> rfl
  rw [statusBit, hb, mirrorByte, getLsbD_byteOfBits, hdiv]
  simp [hmod]

/-- One coil written (43_functions.md R265): the cell, and on a change the counter and the event. -/
theorem setCoil_spec (hk : k < s.dev.length) {i : Nat} (hi : i < 48) (v : Bool) :
    BlockUnchanged s (setCoil k i v s) ∧ (setCoil k i v s).ring = s.ring ∧ OnlyCoilsOf k s (setCoil k i v s) ∧
      (∀ j, coil k j (setCoil k i v s) = if j = i then v else coil k j s) ∧
      CountsMoved (fun c => (if c = .locksOpened then if coil k i s ≠ v ∧ v = false then 1 else 0 else 0) +
        (if c = .locksClosed then if coil k i s ≠ v ∧ v = true then 1 else 0 else 0)) s (setCoil k i v s) ∧
      (setCoil k i v s).stats.perDevice.length = s.stats.perDevice.length ∧
      (setCoil k i v s).outputs = s.outputs ++
        (if coil k i s ≠ v then [.lockStateChanged (s.cfg.baseAddr + k) i v] else []) := by
  have hc := fun j => coil_setCoilCell (j := j) hk hi v
  have ho := OnlyCoilsOf.setCoilCell k i v s
  unfold setCoil
  split
  · rename_i he
    refine ⟨⟨rfl, rfl, rfl, rfl⟩, rfl, ho, hc, ?_, rfl, ?_⟩
    · exact CountsMoved.of_stats_eq rfl fun c => by simp [he]
    · simp [he]
  · rename_i he
    refine ⟨⟨rfl, rfl, rfl, rfl⟩, rfl, ho, hc, ?_, by simp, ?_⟩
    · refine ((CountsMoved.of_addTo (s := setCoilCell k i v s) (c := if v then .locksClosed else .locksOpened) (n := 1)
        (by cases v <;> trivial) (by omega)).of_stats_congr (s' := s) rfl rfl rfl).congr fun c => ?_
      cases v <;> cases hcv : coil k i s <;> simp_all
    · rfl

theorem setCoils_succ (k start n : Nat) (value : Nat → Bool) (s : State) :
    setCoils k start (n + 1) value s = setCoil k (start + n) (value n) (setCoils k start n value s) := by
  simp [setCoils, List.range_succ]

theorem setHoldingRegs_succ (k start n : Nat) (value : Nat → U16) (s : State) :
    setHoldingRegs k start (n + 1) value s =
      setHoldingReg k (start + n) (value n) (setHoldingRegs k start n value s) := by
  simp [setHoldingRegs, List.range_succ]

theorem changedCoils_succ (k start n : Nat) (value : Nat → Bool) (s : State) :
    changedCoils k start (n + 1) value s =
      changedCoils k start n value s ++ if coil k (start + n) s ≠ value n then [n] else [] := by
  simp only [changedCoils, List.range_succ, List.filter_append]
  congr 1
  by_cases h : coil k (start + n) s = value n <;> simp [h]

/-- A run of coils written: each changed coil moves one counter and emits one event, in increasing index. -/
theorem setCoils_spec (hk : k < s.dev.length) {start n : Nat} (h : start + n ≤ 48) (value : Nat → Bool) :
    let t := setCoils k start n value s
    BlockUnchanged s t ∧ t.ring = s.ring ∧ OnlyCoilsOf k s t ∧
      (∀ j, coil k j t = if start ≤ j ∧ j < start + n then value (j - start) else coil k j s) ∧
      CountsMoved (fun c =>
        (if c = .locksOpened then (changedCoils k start n value s).countP fun j => !value j else 0) +
        (if c = .locksClosed then (changedCoils k start n value s).countP fun j => value j else 0)) s t ∧
      t.stats.perDevice.length = s.stats.perDevice.length ∧
      t.outputs = s.outputs ++ (changedCoils k start n value s).map fun j =>
        .lockStateChanged (s.cfg.baseAddr + k) (start + j) (value j) := by
  induction n with
  | zero =>
    refine ⟨⟨rfl, rfl, rfl, rfl⟩, rfl, OnlyCoilsOf.refl k rfl, fun j => ?_, ?_, rfl, ?_⟩
    · rw [if_neg (by omega)]; rfl
    · exact CountsMoved.of_stats_eq rfl fun c => by simp [changedCoils]
    · simp [changedCoils, setCoils]
  | succ n ih =>
    obtain ⟨hb, hr, ho, hc, hm, hp, hout⟩ := ih (by omega)
    rw [setCoils_succ]
    generalize setCoils k start n value s = u at *
    obtain ⟨gb, gr, go, gc, gm, gp, gout⟩ :=
      setCoil_spec (s := u) (by rw [ho.1]; exact hk) (i := start + n) (by omega) (value n)
    have hold : coil k (start + n) u = coil k (start + n) s := by rw [hc, if_neg (by omega)]
    rw [hold] at gm gout
    have hcfg : u.cfg = s.cfg := hb.2.2.1
    refine ⟨⟨gb.1.trans hb.1, gb.2.1.trans hb.2.1, gb.2.2.1.trans hcfg, gb.2.2.2.trans hb.2.2.2⟩, gr.trans hr,
      ho.trans go, fun j => ?_, (hm.trans gm hcfg).congr fun c => ?_, gp.trans hp, ?_⟩
    · rw [gc, hc]
      split_ifs <;> first | rfl | omega | skip
      all_goals (rename_i h1 h2; subst h1; simp)
    · rw [changedCoils_succ, List.countP_append, List.countP_append]
      cases c <;> simp
      all_goals split_ifs <;> simp_all
    · rw [gout, hout, changedCoils_succ, List.map_append, List.append_assoc, hcfg]
      congr 2
      split_ifs <;> simp

/-- A run of holding registers written. -/
theorem setHoldingRegs_spec (hk : k < s.dev.length) {start n : Nat} (h : start + n ≤ 256) (value : Nat → U16) :
    let t := setHoldingRegs k start n value s
    BlockUnchanged s t ∧ t.ring = s.ring ∧ OnlyHoldingRegsOf k s t ∧
      (∀ j, holdingReg k j t = if start ≤ j ∧ j < start + n then value (j - start) else holdingReg k j s) ∧
      t.stats = s.stats ∧ t.outputs = s.outputs := by
  induction n with
  | zero =>
    refine ⟨⟨rfl, rfl, rfl, rfl⟩, rfl, OnlyHoldingRegsOf.refl k rfl, fun j => ?_, rfl, rfl⟩
    rw [if_neg (by omega)]; rfl
  | succ n ih =>
    obtain ⟨hb, hr, ho, hc, hst, hout⟩ := ih (by omega)
    rw [setHoldingRegs_succ]
    generalize setHoldingRegs k start n value s = u at *
    have gc := fun j => holdingReg_setHoldingReg (s := u) (k := k) (j := j) (by rw [ho.1]; exact hk)
      (i := start + n) (by omega) (value n)
    refine ⟨⟨hb.1, hb.2.1, hb.2.2.1, hb.2.2.2⟩, hr, ho.trans (OnlyHoldingRegsOf.setHoldingReg ..), fun j => ?_, hst, hout⟩
    rw [gc, hc]
    split_ifs <;> first | rfl | omega | skip
    all_goals (rename_i h1 h2; subst h1; simp)

/-- Writing the value a coil already has changes nothing (20_memory.md R85). -/
theorem setCoil_same (hk : k < s.dev.length) {i : Nat} (hi : i < 48) {v : Bool} (h : coil k i s = v) :
    setCoil k i v s = s := by
  have hd : device k s = s.dev[k] := by simp [device, hk]
  have hc : (device k s).coil.setIfInBounds i v = (device k s).coil := by
    subst h
    ext j hj
    rw [Vector.getElem_setIfInBounds]
    split
    · rename_i he; subst he; simp [coil, hi]
    · rfl
  unfold setCoil
  simp only [h, if_true]
  unfold setCoilCell setDevice
  rw [hc, hd]
  show { s with dev := s.dev.set k s.dev[k] } = s
  rw [List.set_getElem_self]

theorem setCoils_same (hk : k < s.dev.length) {start n : Nat} (hn : start + n ≤ 48) {value : Nat → Bool}
    (h : ∀ j < n, coil k (start + j) s = value j) : setCoils k start n value s = s := by
  induction n with
  | zero => rfl
  | succ n ih =>
    rw [setCoils_succ, ih (by omega) fun j hj => h j (by omega)]
    exact setCoil_same hk (by omega) (h n (by omega))

/-- Writing the value a holding register already has changes nothing (20_memory.md R85). -/
theorem setHoldingReg_same (hk : k < s.dev.length) {i : Nat} (hi : i < 256) {v : U16} (h : holdingReg k i s = v) :
    setHoldingReg k i v s = s := by
  have hd : device k s = s.dev[k] := by simp [device, hk]
  have hc : (device k s).hr.setIfInBounds i v = (device k s).hr := by
    subst h
    ext1 j hj
    rw [Vector.getElem_setIfInBounds]
    split
    · rename_i he; subst he; simp [holdingReg, hi]
    · rfl
  unfold setHoldingReg setDevice
  rw [hc, hd]
  show { s with dev := s.dev.set k s.dev[k] } = s
  rw [List.set_getElem_self]

theorem setHoldingRegs_same (hk : k < s.dev.length) {start n : Nat} (hn : start + n ≤ 256) {value : Nat → U16}
    (h : ∀ j < n, holdingReg k (start + j) s = value j) : setHoldingRegs k start n value s = s := by
  induction n with
  | zero => rfl
  | succ n ih =>
    rw [setHoldingRegs_succ, ih (by omega) fun j hj => h j (by omega)]
    exact setHoldingReg_same hk (by omega) (h n (by omega))

/-- A second resynchronisation changes nothing (43_functions.md R241). -/
theorem resyncStatus_twice (hk : k < s.dev.length) : resyncStatus k (resyncStatus k s) = resyncStatus k s := by
  have hm : ∀ j, mirrorByte k (resyncStatus k s) j = mirrorByte k s j := by
    intro j
    have hc : (device k (resyncStatus k s)).coil = (device k s).coil := by
      unfold resyncStatus; rw [device_setDevice hk]
    simp only [mirrorByte, coil, hc]
  conv_lhs => rw [resyncStatus]
  simp only [hm]
  unfold resyncStatus
  rw [device_setDevice hk]
  simp [setDevice]

end Sys2Proof.Machine
end

