-- ==== Sys2Proof/Laws/Requests.lean ====
section
/-! SUPPORT. The course of one request, once for all functions (42_dispatch.md R200): silent at a foreign address, an
exception, or a normal response; and `exec` as one total function. -/

namespace Sys2Proof.Machine

/-- `slotOf` in the words of 42_dispatch.md R200 and R202. -/
theorem slotOf_eq_some {cfg : Cfg} {a : Byte} {k : Nat} :
    slotOf cfg a = some k ↔ a.toNat = cfg.baseAddr + k ∧ k < cfg.nDev := by
  unfold slotOf
  split_ifs with h
  · rw [Option.some_inj]; omega
  · simp; omega

theorem slotOf_eq_none {cfg : Cfg} {a : Byte} :
    slotOf cfg a = none ↔ a.toNat < cfg.baseAddr ∨ cfg.baseAddr + cfg.nDev ≤ a.toNat := by
  unfold slotOf
  split_ifs with h
  · simp; omega
  · simp; omega

theorem Names.slot {s : State} {a : Byte} {k : Nat} (h : Names s a k) : slotOf s.cfg a = some k :=
  slotOf_eq_some.2 ⟨h.1, h.2.1⟩

/-- The state before a function's rule runs: only the counters and the outputs have moved. -/
def dispatched (i : Instr) (k fidx : Nat) (s : State) : State := countDispatched k fidx (receiveFrame i s)

/-- A supported request at its own device (42_dispatch.md R200). -/
theorem serve_of_slot {i : Instr} {k fidx : Nat} {rule : Nat → State → Reply} {s : State}
    (h : slotOf s.cfg i.address = some k) :
    serve i fidx rule s = answer i (rule k (dispatched i k fidx s)) (dispatched i k fidx s) := by
  simp [serve, h, dispatched]

@[simp] theorem dispatched_dev (i : Instr) (k fidx : Nat) (s : State) : (dispatched i k fidx s).dev = s.dev := rfl
@[simp] theorem dispatched_ring (i : Instr) (k fidx : Nat) (s : State) : (dispatched i k fidx s).ring = s.ring := rfl
@[simp] theorem dispatched_cfg (i : Instr) (k fidx : Nat) (s : State) : (dispatched i k fidx s).cfg = s.cfg := rfl
@[simp] theorem dispatched_outputs (i : Instr) (k fidx : Nat) (s : State) :
    (dispatched i k fidx s).outputs = s.outputs ++ [.frameReceived (encode i) true] := rfl

theorem dispatched_counts {i : Instr} {k fidx : Nat} {s : State} (hk : k < s.stats.perDevice.length) (hf : fidx < 8) :
    CountsMoved (fun c => (if c = .totalRequests then 1 else 0) + ((if c = .validRequests then 1 else 0) +
      (if c = .perDevice k then 1 else 0) + (if c = .perFunction fidx then 1 else 0))) s (dispatched i k fidx s) :=
  (receiveFrame_counts i s).trans
    (countDispatched_counts k fidx (receiveFrame i s) (by simpa [receiveFrame] using hk) hf) rfl

/-- An exception moves the counters of the second row of 44_statistics.md R302 and puts out the exception response. -/
theorem took_exception {i : Instr} {k fidx : Nat} {s : State} (e : ExceptionCode)
    (hk : k < s.stats.perDevice.length) (hf : fidx < 8) :
    TookException i k fidx (exceptionByte e) s
      (takeException i.address i.functionCode e (dispatched i k fidx s)) := by
  refine ⟨by simp [BlockUnchanged, dispatched], by simp, by simp, ?_, ?_⟩
  · rw [takeException]
    have h := send_counts (appendCrc (exceptionBody i.address i.functionCode e)) (dispatched i k fidx s) (by simp)
    have h' := (dispatched_counts (i := i) hk hf).trans h (dispatched_cfg ..)
    refine h'.congr fun c => ?_
    cases c <;> simp [requestDelta, exceptionBody]
  · simp [Answered, exceptionBody]

/-- A normal response: what the rule did, then the response (42_dispatch.md R200, R220). -/
theorem send_answered {i : Instr} {k fidx opened closed : Nat} {s t : State} {middle : List Output} {rbody : List Byte}
    (hk : k < s.stats.perDevice.length) (hf : fidx < 8)
    (hcfg : t.cfg = s.cfg)
    (hm : CountsMoved (fun c => (if c = .locksOpened then opened else 0) + (if c = .locksClosed then closed else 0))
      (dispatched i k fidx s) t)
    (ho : t.outputs = (dispatched i k fidx s).outputs ++ middle) :
    CountsMoved (requestDelta k fidx (rbody.length + 2) opened closed) s (send (appendCrc rbody) t) ∧
      Answered i middle rbody s (send (appendCrc rbody) t) := by
  constructor
  · refine (((dispatched_counts (i := i) hk hf).trans hm rfl).trans
      (send_counts (appendCrc rbody) t (by simp)) hcfg).congr fun c => ?_
    cases c <;> simp [requestDelta]
  · simp [Answered, ho]

/-- The state `exec` answers: every instruction completes (60_exceptions.md R344). -/
def afterRequest (i : Instr) (s : State) : State :=
  match i with
  | .readCoils a x => serve (.readCoils a x) 0 (readCoils a x) s
  | .readDiscreteInputs a x => serve (.readDiscreteInputs a x) 1 (readDiscreteInputs a x) s
  | .readHoldingRegisters a x => serve (.readHoldingRegisters a x) 2 (readHoldingRegisters a x) s
  | .readInputRegisters a x => serve (.readInputRegisters a x) 3 (readInputRegisters a x) s
  | .writeSingleCoil a x => serve (.writeSingleCoil a x) 4 (writeSingleCoil a x) s
  | .writeSingleRegister a x => serve (.writeSingleRegister a x) 5 (writeSingleRegister a x) s
  | .writeMultipleCoils a x => serve (.writeMultipleCoils a x) 6 (writeMultipleCoils a x) s
  | .writeMultipleRegisters a x => serve (.writeMultipleRegisters a x) 7 (writeMultipleRegisters a x) s
  | .illegalFunction a fc p => serveIllegal (.illegalFunction a fc p) s

theorem exec_eq (i : Instr) (s : State) : exec i s = .next (afterRequest i s) := by
  cases i <;> rfl

theorem exec_eq_next {i : Instr} {s t : State} : exec i s = .next t ↔ t = afterRequest i s := by
  rw [exec_eq]
  constructor
  · intro h; injection h with h; exact h.symm
  · rintro rfl; rfl

/-- At a foreign address only the frame is reported and counted (42_dispatch.md R201). -/
theorem afterRequest_foreign {i : Instr} {s : State} (h : slotOf s.cfg i.address = none) :
    afterRequest i s = receiveFrame i s := by
  cases i <;> simp_all [afterRequest, serve, serveIllegal, Instr.address]

end Sys2Proof.Machine
end

