-- ==== Sys2Proof/Laws/Accounting.lean ====
section
/-! SUPPORT. What every operation that only accounts does: it keeps the configuration and the counter table, appends
outputs, and moves bounded counters up and not past their bound (44_statistics.md R301, R320). -/

namespace Sys2Proof.Machine

/-- The state `t` accounts for more than `s` does, and forgets nothing. -/
structure Accounts (s t : State) : Prop where
  cfg : t.cfg = s.cfg
  slots : t.stats.perDevice.length = s.stats.perDevice.length
  outputs : s.outputs <+: t.outputs
  counters : ∀ c, stat c s ≤ 2 ^ s.cfg.cntWidth - 1 → stat c s ≤ stat c t ∧ stat c t ≤ 2 ^ s.cfg.cntWidth - 1

namespace Accounts

variable {s t u : State}

theorem refl (s : State) : Accounts s s := ⟨rfl, rfl, List.prefix_rfl, fun _ h => ⟨le_refl _, h⟩⟩

theorem trans (h : Accounts s t) (h' : Accounts t u) : Accounts s u := by
  refine ⟨h'.cfg.trans h.cfg, h'.slots.trans h.slots, h.outputs.trans h'.outputs, fun c hc => ?_⟩
  have h1 := h.counters c hc
  have h2 := h'.counters c (by rw [h.cfg]; exact h1.2)
  rw [h.cfg] at h2
  omega

/-- Nothing but other fields moved. -/
theorem of_eq (hc : t.cfg = s.cfg) (hs : t.stats = s.stats) (ho : t.outputs = s.outputs) : Accounts s t := by
  refine ⟨hc, by rw [hs], by rw [ho], fun c h => ?_⟩
  rw [stat_congr hs]; exact ⟨le_refl _, h⟩

theorem addTo (c : Counter) (n : Nat) (s : State) : Accounts s (addTo c n s) := by
  refine ⟨rfl, by simp, List.prefix_rfl, fun c' h => ?_⟩
  by_cases hc : c.InTable s.stats
  · rw [stat_addTo c c' n s hc]
    split
    · rename_i he; subst he; simp only [sat]; omega
    · exact ⟨le_refl _, h⟩
  · rw [stat_congr (t := Machine.addTo c n s) (s := s) (put_of_not_inTable hc _)]; exact ⟨le_refl _, h⟩

theorem bump (c : Counter) (s : State) : Accounts s (bump c s) := addTo c 1 s

theorem emit (o : Output) (s : State) : Accounts s (emit o s) :=
  ⟨rfl, rfl, List.prefix_append _ _, fun _ h => ⟨le_refl _, h⟩⟩

theorem record (kind : ErrKind) (raw : List Byte) (e : Option U16) (o : Option Nat) (s : State) :
    Accounts s (record kind raw e o s) :=
  ⟨rfl, rfl, List.prefix_append _ _, fun _ h => ⟨le_refl _, h⟩⟩

theorem send (r : List Byte) (s : State) : Accounts s (send r s) :=
  (((emit (.tx r) s).trans (bump .responsesSent _)).trans (addTo .bytesSent r.length _)).trans (emit _ _)

theorem receiveFrame (i : Instr) (s : State) : Accounts s (receiveFrame i s) :=
  (emit _ s).trans (bump _ _)

theorem dispatched (i : Instr) (k fidx : Nat) (s : State) : Accounts s (dispatched i k fidx s) :=
  (((receiveFrame i s).trans (bump .validRequests _)).trans (bump (.perDevice k) _)).trans (bump (.perFunction fidx) _)

theorem setCoil (k i : Nat) (v : Bool) (s : State) : Accounts s (setCoil k i v s) := by
  have h : Accounts s (setCoilCell k i v s) := of_eq rfl rfl rfl
  unfold Machine.setCoil
  split
  · exact h
  · exact (h.trans (bump _ _)).trans (emit _ _)

theorem setCoils (k start n : Nat) (value : Nat → Bool) (s : State) : Accounts s (setCoils k start n value s) := by
  induction n with
  | zero => exact refl s
  | succ n ih => rw [setCoils_succ]; exact ih.trans (setCoil ..)

theorem setHoldingRegs (k start n : Nat) (value : Nat → U16) (s : State) :
    Accounts s (setHoldingRegs k start n value s) := by
  induction n with
  | zero => exact refl s
  | succ n ih => rw [setHoldingRegs_succ]; exact ih.trans (of_eq rfl rfl rfl)

end Accounts

end Sys2Proof.Machine
end

