-- ==== Sys2Proof/Laws/Effects.lean ====
section
/-! SUPPORT. Everything one request can do, once for all functions: silent at a foreign address; else an exception, a
read, a run of coils or of holding registers written, or an illegal function (42_dispatch.md R200, 43_functions.md). -/

namespace Sys2Proof.Machine

/-- A normal response body of request `i`: address, function byte, and 3 to 254 bytes in all (42_dispatch.md R210,
R212). -/
structure ReplyBody (i : Instr) (rbody : List Byte) : Prop where
  address : rbody.getD 0 0#8 = i.address
  function : rbody.getD 1 0#8 = i.functionCode
  least : 3 ≤ rbody.length
  most : rbody.length ≤ 254

/-- What a request to device slot `k` did, as the state `t` it leaves. -/
inductive Effect (i : Instr) (k : Nat) (s t : State) : Prop where
  /-- An exception of a supported function. -/
  | exception (fidx : Nat) (e : ExceptionCode) (hf : fidx < 8)
      (ht : t = takeException i.address i.functionCode e (dispatched i k fidx s))
  /-- READ_COILS: the mirror is resynchronised. -/
  | readCoils (rbody : List Byte) (hr : ReplyBody i rbody) (hc : i.functionCode = 0x01#8)
      (ht : t = send (appendCrc rbody) (resyncStatus k (dispatched i k 0 s)))
  /-- The other reads. -/
  | read (fidx : Nat) (rbody : List Byte) (hf : fidx < 8) (hr : ReplyBody i rbody)
      (ht : t = send (appendCrc rbody) (dispatched i k fidx s))
  /-- The coil writes. -/
  | coils (fidx start n : Nat) (value : Nat → Bool) (rbody : List Byte) (hf : fidx < 8) (hr : ReplyBody i rbody)
      (hc : i.functionCode = 0x05#8 ∨ i.functionCode = 0x0F#8) (hn : start + n ≤ 48)
      (ht : t = send (appendCrc rbody) (setCoils k start n value (dispatched i k fidx s)))
  /-- The register writes. -/
  | regs (fidx start n : Nat) (value : Nat → U16) (rbody : List Byte) (hf : fidx < 8) (hr : ReplyBody i rbody)
      (hc : i.functionCode = 0x06#8 ∨ i.functionCode = 0x10#8) (hn : start + n ≤ 256)
      (ht : t = send (appendCrc rbody) (setHoldingRegs k start n value (dispatched i k fidx s)))
  /-- ILLEGAL_FUNCTION. -/
  | illegal (a fc : Byte) (p : List Byte) (hi : i = .illegalFunction a fc p)
      (ht : t = takeException a fc .illegalFunction (record .unsupported (encode i) none (some 1)
        (bump .invalidRequests (bump .unsupportedFunctions (receiveFrame i s)))))

theorem replyBody_bits {i : Instr} {bits : List Bool} (h : bits.length ≤ 256) :
    ReplyBody i (bitReply i.address i.functionCode bits) := by
  refine ⟨rfl, rfl, ?_, ?_⟩ <;> simp [bitReply, packedLength]; omega

theorem replyBody_registers {i : Instr} {regs : List U16} (h : regs.length ≤ 125) :
    ReplyBody i (registerReply i.address i.functionCode regs) := by
  refine ⟨rfl, rfl, ?_, ?_⟩ <;> simp [registerReply]; omega

/-- A supported function at its device: an exception, or what its rule does. -/
theorem serve_reply {i : Instr} {k fidx : Nat} {rule : Nat → State → Reply} {s : State}
    (h : slotOf s.cfg i.address = some k) :
    (∃ e, rule k (dispatched i k fidx s) = .exception e ∧
      serve i fidx rule s = takeException i.address i.functionCode e (dispatched i k fidx s)) ∨
    ∃ u rbody, rule k (dispatched i k fidx s) = .normal u rbody ∧
      serve i fidx rule s = send (appendCrc rbody) u := by
  rw [serve_of_slot h]
  cases hr : rule k (dispatched i k fidx s) with
  | normal u rbody => exact .inr ⟨u, rbody, rfl, rfl⟩
  | exception e => exact .inl ⟨e, rfl, rfl⟩

/-- Every request to a device of the block has one of the effects. -/
theorem afterRequest_effect {i : Instr} {k : Nat} {s : State} (h : slotOf s.cfg i.address = some k) :
    Effect i k s (afterRequest i s) := by
  cases i with
  | illegalFunction a fc p =>
    exact .illegal a fc p rfl (by simp only [afterRequest, serveIllegal, h]; rfl)
  | readCoils a x =>
    rcases serve_reply (fidx := 0) (rule := Machine.readCoils a x) h with ⟨e, -, he⟩ | ⟨u, r, hr, he⟩
    · exact .exception 0 e (by omega) he
    · unfold Machine.readCoils at hr
      split at hr
      · simp at hr
      · rename_i st n hc
        have hle := checkReadCoils_le hc
        simp only [Reply.normal.injEq] at hr
        obtain ⟨rfl, rfl⟩ := hr
        exact .readCoils _ (replyBody_bits (i := .readCoils a x) (by simp; omega)) rfl he
  | readDiscreteInputs a x =>
    rcases serve_reply (fidx := 1) (rule := Machine.readDiscreteInputs a x) h with ⟨e, -, he⟩ | ⟨u, r, hr, he⟩
    · exact .exception 1 e (by omega) he
    · unfold Machine.readDiscreteInputs at hr
      split at hr
      · simp at hr
      · rename_i st n hc
        have hle := checkRead_le hc
        simp only [registerSpace] at hle
        simp only [Reply.normal.injEq] at hr
        obtain ⟨rfl, rfl⟩ := hr
        exact .read 1 _ (by omega) (replyBody_bits (i := .readDiscreteInputs a x) (by simp; omega)) he
  | readHoldingRegisters a x =>
    rcases serve_reply (fidx := 2) (rule := Machine.readHoldingRegisters a x) h with ⟨e, -, he⟩ | ⟨u, r, hr, he⟩
    · exact .exception 2 e (by omega) he
    · unfold Machine.readHoldingRegisters at hr
      split at hr
      · simp at hr
      · rename_i st n hc
        have hle := checkReadRegisters_le hc
        simp only [Reply.normal.injEq] at hr
        obtain ⟨rfl, rfl⟩ := hr
        exact .read 2 _ (by omega) (replyBody_registers (i := .readHoldingRegisters a x) (by simp; omega)) he
  | readInputRegisters a x =>
    rcases serve_reply (fidx := 3) (rule := Machine.readInputRegisters a x) h with ⟨e, -, he⟩ | ⟨u, r, hr, he⟩
    · exact .exception 3 e (by omega) he
    · unfold Machine.readInputRegisters at hr
      split at hr
      · simp at hr
      · rename_i st n hc
        have hle := checkReadRegisters_le hc
        simp only [Reply.normal.injEq] at hr
        obtain ⟨rfl, rfl⟩ := hr
        exact .read 3 _ (by omega) (replyBody_registers (i := .readInputRegisters a x) (by simp; omega)) he
  | writeSingleCoil a x =>
    rcases serve_reply (fidx := 4) (rule := Machine.writeSingleCoil a x) h with ⟨e, -, he⟩ | ⟨u, r, hr, he⟩
    · exact .exception 4 e (by omega) he
    · unfold Machine.writeSingleCoil at hr
      split at hr
      · simp at hr
      · rename_i c on hc
        have hlt := checkWriteCoil_lt hc
        simp only [Reply.normal.injEq] at hr
        obtain ⟨rfl, rfl⟩ := hr
        cases x with
        | malformed p => simp [checkWriteCoil] at hc
        | fields ad v =>
          refine .coils 4 c 1 (fun _ => closedForOn s.cfg on) (encodeBody (.writeSingleCoil a (.fields ad v))) (by omega) ⟨rfl, rfl, ?_, ?_⟩ (.inl rfl) (by omega) ?_
          · simp [encodeBody, Instr.payload, encodeWrite]
          · simp [encodeBody, Instr.payload, encodeWrite]
          · simpa [afterRequest, setCoils] using he
  | writeSingleRegister a x =>
    rcases serve_reply (fidx := 5) (rule := Machine.writeSingleRegister a x) h with ⟨e, -, he⟩ | ⟨u, r, hr, he⟩
    · exact .exception 5 e (by omega) he
    · unfold Machine.writeSingleRegister at hr
      split at hr
      · simp at hr
      · rename_i c v hc
        have hlt := checkWriteRegister_lt hc
        simp only [Reply.normal.injEq] at hr
        obtain ⟨rfl, rfl⟩ := hr
        cases x with
        | malformed p => simp [checkWriteRegister] at hc
        | fields ad w =>
          refine .regs 5 c 1 (fun _ => v) (encodeBody (.writeSingleRegister a (.fields ad w))) (by omega) ⟨rfl, rfl, ?_, ?_⟩ (.inl rfl) (by omega) ?_
          · simp [encodeBody, Instr.payload, encodeWrite]
          · simp [encodeBody, Instr.payload, encodeWrite]
          · simpa [afterRequest, setHoldingRegs] using he
  | writeMultipleCoils a x =>
    rcases serve_reply (fidx := 6) (rule := Machine.writeMultipleCoils a x) h with ⟨e, -, he⟩ | ⟨u, r, hr, he⟩
    · exact .exception 6 e (by omega) he
    · unfold Machine.writeMultipleCoils at hr
      split at hr
      · simp at hr
      · rename_i st n hc
        have hle := checkMulti_le hc
        simp only [Reply.normal.injEq] at hr
        obtain ⟨rfl, rfl⟩ := hr
        cases x with
        | malformed p => simp [checkMulti] at hc
        | fields ad w b v =>
          refine .coils 6 st n _ _ (by omega) ⟨rfl, rfl, ?_, ?_⟩ (.inr rfl) hle he
          · simp [encodeBody, Instr.payload, encodeMulti]
          · simp [encodeBody, Instr.payload, encodeMulti]
  | writeMultipleRegisters a x =>
    rcases serve_reply (fidx := 7) (rule := Machine.writeMultipleRegisters a x) h with ⟨e, -, he⟩ | ⟨u, r, hr, he⟩
    · exact .exception 7 e (by omega) he
    · unfold Machine.writeMultipleRegisters at hr
      split at hr
      · simp at hr
      · rename_i st n hc
        have hle := checkMulti_le hc
        simp only [Reply.normal.injEq] at hr
        obtain ⟨rfl, rfl⟩ := hr
        cases x with
        | malformed p => simp [checkMulti] at hc
        | fields ad w b v =>
          refine .regs 7 st n _ _ (by omega) ⟨rfl, rfl, ?_, ?_⟩ (.inr rfl) hle he
          · simp [encodeBody, Instr.payload, encodeMulti]
          · simp [encodeBody, Instr.payload, encodeMulti]

/-- Every request only accounts, whatever else it writes (42_dispatch.md R200). -/
theorem Accounts.afterRequest (i : Instr) (s : State) : Accounts s (afterRequest i s) := by
  cases hk : slotOf s.cfg i.address with
  | none => rw [afterRequest_foreign hk]; exact .receiveFrame i s
  | some k =>
    cases afterRequest_effect hk with
    | exception fidx e hf ht => rw [ht]; exact (Accounts.dispatched i k fidx s).trans (.send _ _)
    | readCoils r hr hc ht =>
      rw [ht]
      exact ((Accounts.dispatched i k 0 s).trans (u := resyncStatus k (Machine.dispatched i k 0 s)) (.of_eq rfl rfl rfl)).trans
        (.send _ _)
    | read fidx r hf hr ht => rw [ht]; exact (Accounts.dispatched i k fidx s).trans (.send _ _)
    | coils fidx st n v r hf hr hc hn ht =>
      rw [ht]; exact ((Accounts.dispatched i k fidx s).trans (.setCoils ..)).trans (.send _ _)
    | regs fidx st n v r hf hr hc hn ht =>
      rw [ht]; exact ((Accounts.dispatched i k fidx s).trans (.setHoldingRegs ..)).trans (.send _ _)
    | illegal a fc p hi ht =>
      rw [ht]
      exact ((((Accounts.receiveFrame i s).trans (.bump _ _)).trans (.bump _ _)).trans (.record ..)).trans (.send _ _)

end Sys2Proof.Machine
end

