-- ==== Sys2Proof/Laws/Frames.lean ====
section
/-! SUPPORT. What a request leaves alone (20_memory.md R70, R78; 10_state.md R41). -/

namespace Sys2Proof.Machine

variable {s t u : State} {k : Nat}

theorem BlockUnchanged.refl (s : State) : BlockUnchanged s s := ⟨rfl, rfl, rfl, rfl⟩

theorem BlockUnchanged.trans (h : BlockUnchanged s t) (h' : BlockUnchanged t u) : BlockUnchanged s u :=
  ⟨h'.1.trans h.1, h'.2.1.trans h.2.1, h'.2.2.1.trans h.2.2.1, h'.2.2.2.trans h.2.2.2⟩

theorem BlockUnchanged.setCoils (k start n : Nat) (value : Nat → Bool) (s : State) :
    BlockUnchanged s (setCoils k start n value s) := by
  induction n with
  | zero => exact .refl s
  | succ n ih =>
    rw [setCoils_succ]
    refine ih.trans ?_
    unfold setCoil
    split <;> exact ⟨rfl, rfl, rfl, rfl⟩

theorem BlockUnchanged.setHoldingRegs (k start n : Nat) (value : Nat → U16) (s : State) :
    BlockUnchanged s (setHoldingRegs k start n value s) := by
  induction n with
  | zero => exact .refl s
  | succ n ih => rw [setHoldingRegs_succ]; exact ih.trans ⟨rfl, rfl, rfl, rfl⟩

/-- No request touches the synchronizer, the configuration or the host's inputs. -/
theorem afterRequest_block (i : Instr) (s : State) : BlockUnchanged s (afterRequest i s) := by
  cases hk : slotOf s.cfg i.address with
  | none => rw [afterRequest_foreign hk]; exact ⟨rfl, rfl, rfl, rfl⟩
  | some k =>
    cases afterRequest_effect hk with
    | exception fidx e hf ht => rw [ht]; simp [BlockUnchanged, dispatched]
    | readCoils r hr hc ht => rw [ht]; simp [BlockUnchanged, dispatched]
    | read fidx r hf hr ht => rw [ht]; simp [BlockUnchanged, dispatched]
    | coils fidx st n v r hf hr hc hn ht =>
      rw [ht]; simpa [BlockUnchanged, dispatched] using BlockUnchanged.setCoils k st n v (dispatched i k fidx s)
    | regs fidx st n v r hf hr hc hn ht =>
      rw [ht]; simpa [BlockUnchanged, dispatched] using BlockUnchanged.setHoldingRegs k st n v (dispatched i k fidx s)
    | illegal a fc p hi ht => rw [ht]; simp [BlockUnchanged]

/-- Only a slot the table has is written, and of it only the coils. -/
theorem OnlyCoilsOf.setCoils (k start n : Nat) (value : Nat → Bool) (s : State) :
    OnlyCoilsOf k s (setCoils k start n value s) := by
  induction n with
  | zero => exact .refl k rfl
  | succ n ih =>
    rw [setCoils_succ]
    refine ih.trans ?_
    have h := OnlyCoilsOf.setCoilCell k (start + n) (value n) (Machine.setCoils k start n value s)
    unfold setCoil
    split
    · exact h
    · exact h

theorem OnlyHoldingRegsOf.setHoldingRegs (k start n : Nat) (value : Nat → U16) (s : State) :
    OnlyHoldingRegsOf k s (setHoldingRegs k start n value s) := by
  induction n with
  | zero => exact .refl k rfl
  | succ n ih => rw [setHoldingRegs_succ]; exact ih.trans (.setHoldingReg ..)

/-- The frames are about the device tables alone. -/
theorem OnlyMirrorOf.congr {s' t' : State} (h : OnlyMirrorOf k s t) (hs : s'.dev = s.dev) (ht : t'.dev = t.dev) :
    OnlyMirrorOf k s' t' := by
  simpa [OnlyMirrorOf, device, hs, ht] using h

theorem OnlyCoilsOf.congr {s' t' : State} (h : OnlyCoilsOf k s t) (hs : s'.dev = s.dev) (ht : t'.dev = t.dev) :
    OnlyCoilsOf k s' t' := by
  simpa [OnlyCoilsOf, device, hs, ht] using h

theorem OnlyHoldingRegsOf.congr {s' t' : State} (h : OnlyHoldingRegsOf k s t) (hs : s'.dev = s.dev)
    (ht : t'.dev = t.dev) : OnlyHoldingRegsOf k s' t' := by
  simpa [OnlyHoldingRegsOf, device, hs, ht] using h

/-- What a request may write of the devices: nothing, or one kind of cell of the device it addresses. -/
theorem afterRequest_devices (i : Instr) (s : State) :
    (afterRequest i s).dev = s.dev ∨ ∃ k, slotOf s.cfg i.address = some k ∧
      ((i.functionCode = 0x01#8 ∧ OnlyMirrorOf k s (afterRequest i s)) ∨
        ((i.functionCode = 0x05#8 ∨ i.functionCode = 0x0F#8) ∧ OnlyCoilsOf k s (afterRequest i s)) ∨
        ((i.functionCode = 0x06#8 ∨ i.functionCode = 0x10#8) ∧ OnlyHoldingRegsOf k s (afterRequest i s))) := by
  cases hk : slotOf s.cfg i.address with
  | none => rw [afterRequest_foreign hk]; exact .inl rfl
  | some k =>
    cases afterRequest_effect hk with
    | exception fidx e hf ht => rw [ht]; left; simp
    | readCoils r hr hc ht =>
      exact .inr ⟨k, rfl, .inl ⟨hc, (OnlyMirrorOf.resyncStatus k (dispatched i k 0 s)).congr rfl (by simp [ht])⟩⟩
    | read fidx r hf hr ht => rw [ht]; left; simp
    | coils fidx st n v r hf hr hc hn ht =>
      exact .inr ⟨k, rfl, .inr (.inl ⟨hc,
        (OnlyCoilsOf.setCoils k st n v (dispatched i k fidx s)).congr rfl (by simp [ht])⟩)⟩
    | regs fidx st n v r hf hr hc hn ht =>
      exact .inr ⟨k, rfl, .inr (.inr ⟨hc,
        (OnlyHoldingRegsOf.setHoldingRegs k st n v (dispatched i k fidx s)).congr rfl (by simp [ht])⟩)⟩
    | illegal a fc p hi ht => rw [ht]; left; simp

theorem stat_addTo_ne {c c' : Counter} (h : c' ≠ c) (n : Nat) (s : State) : stat c' (addTo c n s) = stat c' s :=
  get_put_of_ne h _ _

theorem stat_bump_ne {c c' : Counter} (h : c' ≠ c) (s : State) : stat c' (bump c s) = stat c' s :=
  get_put_of_ne h _ _

theorem stat_setCoils {c : Counter} (ho : c ≠ .locksOpened) (hc : c ≠ .locksClosed) (k start n : Nat)
    (value : Nat → Bool) (s : State) : stat c (setCoils k start n value s) = stat c s := by
  induction n with
  | zero => rfl
  | succ n ih =>
    rw [setCoils_succ, ← ih]
    unfold setCoil
    split
    · rfl
    · rw [stat_emit, stat_bump_ne (by split <;> assumption)]; rfl

theorem stat_setHoldingRegs (c : Counter) (k start n : Nat) (value : Nat → U16) (s : State) :
    stat c (setHoldingRegs k start n value s) = stat c s := by
  induction n with
  | zero => rfl
  | succ n ih => rw [setHoldingRegs_succ, ← ih]; rfl

/-- A request moves no counter of the wire's receiving side (44_statistics.md R302, first to third rows). -/
theorem stat_afterRequest {c : Counter} (hc : c = .bytesReceived ∨ c = .crcErrors ∨ c = .framingErrors)
    (i : Instr) (s : State) : stat c (afterRequest i s) = stat c s := by
  have hs : ∀ r u, stat c (send r u) = stat c u := fun r u => by
    simp only [send, stat_emit]
    rw [stat_addTo_ne (by rcases hc with rfl | rfl | rfl <;> simp), stat_bump_ne (by rcases hc with rfl | rfl | rfl <;> simp),
      stat_emit]
  have hr : stat c (receiveFrame i s) = stat c s := by
    rw [receiveFrame, stat_bump_ne (by rcases hc with rfl | rfl | rfl <;> simp), stat_emit]
  have hd : ∀ k fidx, stat c (dispatched i k fidx s) = stat c s := fun k fidx => by
    rw [dispatched, countDispatched, stat_bump_ne (by rcases hc with rfl | rfl | rfl <;> simp),
      stat_bump_ne (by rcases hc with rfl | rfl | rfl <;> simp),
      stat_bump_ne (by rcases hc with rfl | rfl | rfl <;> simp), hr]
  cases hk : slotOf s.cfg i.address with
  | none => rw [afterRequest_foreign hk, hr]
  | some k =>
    cases afterRequest_effect hk with
    | exception fidx e hf ht => rw [ht, takeException, hs, hd]
    | readCoils r hr hc ht => rw [ht, hs]; exact hd k 0
    | read fidx r hf hr ht => rw [ht, hs, hd]
    | coils fidx st n v r hf hr hx hn ht =>
      rw [ht, hs, stat_setCoils (by rcases hc with rfl | rfl | rfl <;> simp) (by rcases hc with rfl | rfl | rfl <;> simp), hd]
    | regs fidx st n v r hf hr hx hn ht => rw [ht, hs, stat_setHoldingRegs, hd]
    | illegal a fc p hi ht =>
      rw [ht, takeException, hs, record, stat_emit]
      refine Eq.trans ?_ hr
      rw [← stat_bump_ne (c := .unsupportedFunctions) (by rcases hc with rfl | rfl | rfl <;> simp) (receiveFrame i s),
        ← stat_bump_ne (c := .invalidRequests) (by rcases hc with rfl | rfl | rfl <;> simp)
          (bump .unsupportedFunctions (receiveFrame i s))]
      rfl

theorem setCoils_ring (k start n : Nat) (value : Nat → Bool) (s : State) : (setCoils k start n value s).ring = s.ring := by
  induction n with
  | zero => rfl
  | succ n ih => rw [setCoils_succ, ← ih]; unfold setCoil; split <;> rfl

theorem setHoldingRegs_ring (k start n : Nat) (value : Nat → U16) (s : State) :
    (setHoldingRegs k start n value s).ring = s.ring := by
  induction n with
  | zero => rfl
  | succ n ih => rw [setHoldingRegs_succ, ← ih]; rfl

/-- Of the requests only ILLEGAL_FUNCTION records an error (44_statistics.md R313, R314). -/
theorem afterRequest_ring (i : Instr) (s : State) :
    (afterRequest i s).ring = s.ring ∨ ∃ a fc p, i = .illegalFunction a fc p ∧
      (afterRequest i s).ring = pushRecord s.ring ⟨.unsupported, encode i, none, some 1⟩ := by
  cases hk : slotOf s.cfg i.address with
  | none => rw [afterRequest_foreign hk]; exact .inl rfl
  | some k =>
    cases afterRequest_effect hk with
    | exception fidx e hf ht => left; rw [ht]; simp
    | readCoils r hr hc ht => left; rw [ht]; simp
    | read fidx r hf hr ht => left; rw [ht]; simp
    | coils fidx st n v r hf hr hc hn ht => left; rw [ht]; simp [setCoils_ring]
    | regs fidx st n v r hf hr hc hn ht => left; rw [ht]; simp [setHoldingRegs_ring]
    | illegal a fc p hi ht => right; exact ⟨a, fc, p, hi, by rw [ht]; simp⟩

theorem afterRequest_dev_length (i : Instr) (s : State) : (afterRequest i s).dev.length = s.dev.length := by
  rcases afterRequest_devices i s with h | ⟨k', hk, ⟨hc, h⟩ | ⟨hc, h⟩ | ⟨hc, h⟩⟩
  · rw [h]
  all_goals exact h.1

/-- No request writes the input registers or the discrete inputs (10_state.md R39, R40). -/
theorem afterRequest_inputSpaces (i : Instr) (s : State) (k : Nat) :
    (device k (afterRequest i s)).ir = (device k s).ir ∧ (device k (afterRequest i s)).di = (device k s).di := by
  rcases afterRequest_devices i s with h | ⟨k', hk, ⟨hc, h⟩ | ⟨hc, h⟩ | ⟨hc, h⟩⟩
  · rw [device_congr h]; exact ⟨rfl, rfl⟩
  all_goals
    by_cases hkk : k = k'
    · subst hkk
      exact ⟨h.2.2.2.2.1, h.2.2.2.2.2⟩
    · have hd : device k (afterRequest i s) = device k s := by simp [device, h.2.1 k hkk]
      rw [hd]; exact ⟨rfl, rfl⟩

end Sys2Proof.Machine
end

