-- ==== Sys2Proof/Laws/Isolation.lean ====
section
/-! SUPPORT. Two states that agree about one device stay so through every operation on that device (10_state.md R41):
what a request does depends on nothing else. -/

namespace Sys2Proof.Machine

/-- `s` and `s'` agree about slot `k` and the configuration, and have put out the same after `o` and `o'`. -/
structure Alike (k : Nat) (o o' : List Output) (s s' : State) : Prop where
  cfg : s'.cfg = s.cfg
  dev : s'.dev[k]? = s.dev[k]?
  out : ∃ x, s.outputs = o ++ x ∧ s'.outputs = o' ++ x

namespace Alike

variable {k : Nat} {o o' : List Output} {s s' : State}

theorem device (h : Alike k o o' s s') : device k s' = device k s := by
  unfold Machine.device; simp [h.dev]

theorem coil (h : Alike k o o' s s') (j : Nat) : coil k j s' = coil k j s := by
  unfold Machine.coil; rw [h.device]

theorem mirrorByte (h : Alike k o o' s s') (j : Nat) : mirrorByte k s' j = mirrorByte k s j := by
  unfold Machine.mirrorByte; simp [h.coil]

theorem of_eq (h : Alike k o o' s s') {t t' : State} (h1 : t.cfg = s.cfg) (h2 : t.dev = s.dev)
    (h3 : t.outputs = s.outputs) (h1' : t'.cfg = s'.cfg) (h2' : t'.dev = s'.dev) (h3' : t'.outputs = s'.outputs) :
    Alike k o o' t t' := by
  obtain ⟨y, a, b⟩ := h.out
  exact ⟨by rw [h1', h1, h.cfg], by rw [h2', h2, h.dev], y, by rw [h3, a], by rw [h3', b]⟩

theorem emit (h : Alike k o o' s s') (x : Output) : Alike k o o' (emit x s) (emit x s') := by
  obtain ⟨y, h1, h2⟩ := h.out
  exact ⟨h.cfg, h.dev, y ++ [x], by simp [h1], by simp [h2]⟩

theorem addTo (h : Alike k o o' s s') (c : Counter) (n : Nat) : Alike k o o' (addTo c n s) (addTo c n s') :=
  h.of_eq rfl rfl rfl rfl rfl rfl

theorem send (h : Alike k o o' s s') (r : List Byte) : Alike k o o' (send r s) (send r s') :=
  (((h.emit _).addTo _ _).addTo _ _).emit _

theorem record (h : Alike k o o' s s') (kind : ErrKind) (raw : List Byte) (e : Option U16) (off : Option Nat) :
    Alike k o o' (record kind raw e off s) (record kind raw e off s') := by
  unfold Machine.record
  exact (h.of_eq (t := { s with ring := pushRecord s.ring ⟨kind, raw, e, off⟩ })
    (t' := { s' with ring := pushRecord s'.ring ⟨kind, raw, e, off⟩ }) rfl rfl rfl rfl rfl rfl).emit _

theorem setDevice (h : Alike k o o' s s') (d : Device) : Alike k o o' (setDevice k d s) (setDevice k d s') := by
  obtain ⟨y, a, b⟩ := h.out
  refine ⟨h.cfg, ?_, y, a, b⟩
  have hd := h.dev
  simp only [setDevice_dev, List.getElem?_set_self']
  rw [hd]

theorem receiveFrame (h : Alike k o o' s s') (i : Instr) : Alike k o o' (receiveFrame i s) (receiveFrame i s') :=
  (h.emit _).addTo _ _

theorem dispatched (h : Alike k o o' s s') (i : Instr) (fidx : Nat) :
    Alike k o o' (dispatched i k fidx s) (dispatched i k fidx s') :=
  (((h.receiveFrame i).addTo _ _).addTo _ _).addTo _ _

theorem setCoil (h : Alike k o o' s s') (i : Nat) (v : Bool) : Alike k o o' (setCoil k i v s) (setCoil k i v s') := by
  unfold Machine.setCoil setCoilCell
  rw [h.coil, h.device, h.cfg]
  split
  · exact h.setDevice _
  · exact ((h.setDevice _).addTo _ _).emit _

theorem setCoils (h : Alike k o o' s s') (start n : Nat) (value : Nat → Bool) :
    Alike k o o' (setCoils k start n value s) (setCoils k start n value s') := by
  induction n with
  | zero => exact h
  | succ n ih => rw [setCoils_succ, setCoils_succ]; exact ih.setCoil _ _

theorem setHoldingReg (h : Alike k o o' s s') (i : Nat) (v : U16) :
    Alike k o o' (setHoldingReg k i v s) (setHoldingReg k i v s') := by
  unfold Machine.setHoldingReg; rw [h.device]; exact h.setDevice _

theorem setHoldingRegs (h : Alike k o o' s s') (start n : Nat) (value : Nat → U16) :
    Alike k o o' (setHoldingRegs k start n value s) (setHoldingRegs k start n value s') := by
  induction n with
  | zero => exact h
  | succ n ih => rw [setHoldingRegs_succ, setHoldingRegs_succ]; exact ih.setHoldingReg _ _

theorem resyncStatus (h : Alike k o o' s s') : Alike k o o' (resyncStatus k s) (resyncStatus k s') := by
  unfold Machine.resyncStatus; simp only [h.mirrorByte, h.device]; exact h.setDevice _

/-- A supported function at its device: alike if its rule answers alike from states that are. -/
theorem serve {i : Instr} {fidx : Nat} {rule : Nat → State → Reply} (h : Alike k o o' s s')
    (hs : slotOf s.cfg i.address = some k)
    (hr : ∀ D D', Alike k o o' D D' → (∃ e, rule k D = .exception e ∧ rule k D' = .exception e) ∨
      ∃ u u' r, rule k D = .normal u r ∧ rule k D' = .normal u' r ∧ Alike k o o' u u') :
    Alike k o o' (serve i fidx rule s) (serve i fidx rule s') := by
  rw [serve_of_slot hs, serve_of_slot (by rw [h.cfg]; exact hs)]
  rcases hr _ _ (h.dispatched i fidx) with ⟨e, h1, h2⟩ | ⟨u, u', r, h1, h2, h3⟩
  · rw [h1, h2]; exact (h.dispatched i fidx).send _
  · rw [h1, h2]; exact h3.send _

end Alike

end Sys2Proof.Machine
end

