-- ==== Sys2Proof/Laws/PerInstr.lean ====
section
/-! SUPPORT. One statement per instruction about its frame (30_encoding.md R100, R101, R112): the frame is the address
byte, the function byte, the operand bytes and their CRC, low byte first, and it is CRC-valid. -/

namespace Sys2Proof.Laws.FrameShape

/-- The frame of `i` has the shape of R100 and passes `verify`. -/
def Statement (i : Instr) : Prop :=
  4 ≤ (encode i).length ∧ (encode i).take 2 = [i.address, i.functionCode] ∧ verify (encode i) = true

theorem of_body (i : Instr) : Statement i := by
  refine ⟨by simp [encode, encodeBody], by simp [encode, encodeBody, appendCrc], ?_⟩
  rw [encode, appendCrc, verify_concat]
  simp [encodeBody]

theorem readCoils (a : Byte) (args : ReadArgs) : Statement (.readCoils a args) := of_body _

theorem readDiscreteInputs (a : Byte) (args : ReadArgs) : Statement (.readDiscreteInputs a args) := of_body _

theorem readHoldingRegisters (a : Byte) (args : ReadArgs) : Statement (.readHoldingRegisters a args) := of_body _

theorem readInputRegisters (a : Byte) (args : ReadArgs) : Statement (.readInputRegisters a args) := of_body _

theorem writeSingleCoil (a : Byte) (args : WriteArgs) : Statement (.writeSingleCoil a args) := of_body _

theorem writeSingleRegister (a : Byte) (args : WriteArgs) : Statement (.writeSingleRegister a args) := of_body _

theorem writeMultipleCoils (a : Byte) (args : MultiArgs) : Statement (.writeMultipleCoils a args) := of_body _

theorem writeMultipleRegisters (a : Byte) (args : MultiArgs) : Statement (.writeMultipleRegisters a args) := of_body _

theorem illegalFunction (a fc : Byte) (payload : List Byte) : Statement (.illegalFunction a fc payload) := of_body _

end Sys2Proof.Laws.FrameShape
end

