-- ==== Sys2Proof/Laws/Step.lean ====
section
/-! SUPPORT. Everything one step of the block can do, once for all invariants (41_synchronizer.md R181), and how the
synchronizer's operations account (44_statistics.md R302, R303, R312). -/

namespace Sys2Proof.Machine

/-- The ring with one more record (44_statistics.md R312). -/
theorem pushRecord_eq_ringWith (ring : List ErrorRecord) (r : ErrorRecord) : pushRecord ring r = ringWith ring r := by
  unfold pushRecord ringWith
  by_cases h : ring.length < 5
  · simp [h, show ¬ 5 < ring.length + 1 by omega]
  · simp [h, show 5 < ring.length + 1 by omega]

theorem nextMove_own {s : State} (h : OwnTurn s) : nextMove s = .extract s := by
  obtain ⟨h, h1 | ⟨b, q, h1⟩⟩ := h <;> simp [nextMove, h1, h]

/-- What `Extracts` says: the step is `Extract`, from `u`. -/
theorem nextMove_extracts {s u : State} (h : Extracts s u) : nextMove s = .extract u := by
  obtain ⟨h, rfl⟩ | ⟨h, q, hq, rfl⟩ := h
  · exact nextMove_own h
  · simp [nextMove, hq, h]

/-- The block's own step (R175, R177). -/
theorem extractStep_eq_next {u t : State} :
    extractStep u = .next t ↔
      (∃ i rest, fetch u.buf = some (i, rest) ∧ t = afterRequest i (dropFrame rest u)) ∨
        (fetch u.buf = none ∧ t = discardRemainder u) := by
  unfold extractStep
  cases hf : fetch u.buf with
  | none =>
    simp only [Host.Outcome.next.injEq, reduceCtorEq, false_and, exists_false, true_and, false_or]
    exact eq_comm
  | some p =>
    obtain ⟨i, rest⟩ := p
    simp only [exec_eq, Host.Outcome.next.injEq, Option.some.injEq, Prod.mk.injEq, reduceCtorEq, false_and, or_false]
    constructor
    · rintro rfl; exact ⟨i, rest, ⟨rfl, rfl⟩, rfl⟩
    · rintro ⟨_, _, ⟨rfl, rfl⟩, rfl⟩; rfl

/-- A run whose first step answers a next state, on any machine. -/
theorem core_run_succ (M : Host.Core) {s t : M.State} (h : M.step s = .next t) (n : Nat) :
    M.run (n + 1) s = M.run n t := by
  simp [Host.Core.run, h]

/-- A run of the block whose first step answers a next state. -/
theorem run_succ {s t : State} (h : step s = .next t) (n : Nat) :
    Host.Core.run core (n + 1) s = Host.Core.run core n t :=
  core_run_succ core h n

/-- Everything a step can do (R181): the block's own step, waiting, or the taking of one input. -/
theorem step_cases {s t : State} (h : step s = .next t) :
    (∃ u, Extracts s u ∧
      ((∃ i rest, fetch u.buf = some (i, rest) ∧ t = afterRequest i (dropFrame rest u)) ∨
        (fetch u.buf = none ∧ t = discardRemainder u))) ∨
    (s.inputs = [] ∧ s.phase ≠ .extracting ∧ t = s) ∨
    (∃ b q, s.inputs = .rxByte b :: q ∧ s.phase ≠ .extracting ∧ t = receiveByte b { s with inputs := q }) ∨
    (∃ e q, s.inputs = .silence e :: q ∧ t = silence e { s with inputs := q }) ∨
    (∃ q, s.inputs = .extract :: q ∧ s.phase ≠ .extracting ∧ t = { s with inputs := q }) ∨
    (∃ q, s.inputs = .clearStats :: q ∧ t = clearStats { s with inputs := q }) ∨
    (∃ q, s.inputs = .snapshot :: q ∧ t = snapshot { s with inputs := q }) ∨
    (∃ q, s.inputs = .stop :: q ∧ t = stop { s with inputs := q }) ∨
    (∃ q, s.inputs = .reset :: q ∧ s.cfg.Valid ∧
      t = { State.resetWith s.cfg with inputs := q, outputs := s.outputs }) := by
  unfold step nextMove at h
  cases hi : s.inputs with
  | nil =>
    simp only [hi] at h
    by_cases hp : s.phase = .extracting
    · simp only [hp, if_true] at h
      exact .inl ⟨s, .inl ⟨⟨hp, .inl hi⟩, rfl⟩, extractStep_eq_next.1 h⟩
    · simp only [hp, if_false, Host.Outcome.next.injEq] at h
      exact .inr (.inl ⟨rfl, hp, h.symm⟩)
  | cons x q =>
    simp only [hi] at h
    cases x with
    | rxByte b =>
      by_cases hp : s.phase = .extracting
      · simp only [hp, if_true] at h
        exact .inl ⟨s, .inl ⟨⟨hp, .inr ⟨b, q, hi⟩⟩, rfl⟩, extractStep_eq_next.1 h⟩
      · simp only [hp, if_false, Host.Outcome.next.injEq] at h
        exact .inr (.inr (.inl ⟨b, q, rfl, hp, h.symm⟩))
    | silence e =>
      simp only [Host.Outcome.next.injEq] at h
      exact .inr (.inr (.inr (.inl ⟨e, q, rfl, h.symm⟩)))
    | extract =>
      by_cases hp : s.phase = .extracting
      · simp only [hp, if_true] at h
        exact .inl ⟨{ s with inputs := q }, .inr ⟨hp, q, hi, by rw [hp]⟩, extractStep_eq_next.1 (by rw [hp]; exact h)⟩
      · simp only [hp, if_false, Host.Outcome.next.injEq] at h
        exact .inr (.inr (.inr (.inr (.inl ⟨q, rfl, hp, h.symm⟩))))
    | clearStats =>
      simp only [Host.Outcome.next.injEq] at h
      exact .inr (.inr (.inr (.inr (.inr (.inl ⟨q, rfl, h.symm⟩)))))
    | snapshot =>
      simp only [Host.Outcome.next.injEq] at h
      exact .inr (.inr (.inr (.inr (.inr (.inr (.inl ⟨q, rfl, h.symm⟩))))))
    | stop =>
      simp only [Host.Outcome.next.injEq] at h
      exact .inr (.inr (.inr (.inr (.inr (.inr (.inr (.inl ⟨q, rfl, h.symm⟩)))))))
    | reset =>
      simp only [resetBlock] at h
      split at h
      · simp only [Host.Outcome.next.injEq] at h
        exact .inr (.inr (.inr (.inr (.inr (.inr (.inr (.inr ⟨q, rfl, ‹_›, h.symm⟩)))))))
      · simp at h

/-- A discarded remainder moves the counters of its row (44_statistics.md R302). -/
theorem discardRemainder_counts (s : State) : CountsMoved (remainderDelta s.buf.length) s (discardRemainder s) := by
  have h1 := CountsMoved.of_addTo (s := emit (.frameReceived s.buf false) { s with buf := [], phase := .idle })
    (c := .totalRequests) (n := 1) trivial (by omega)
  have h2 := CountsMoved.of_addTo
    (s := bump .totalRequests (emit (.frameReceived s.buf false) { s with buf := [], phase := .idle }))
    (c := .invalidRequests) (n := 1) trivial (by omega)
  have h12 := h1.trans h2 rfl
  unfold discardRemainder recordRemainder
  split
  · rename_i hl
    have h3 := CountsMoved.of_addTo
      (s := bump .invalidRequests (bump .totalRequests
        (emit (.frameReceived s.buf false) { s with buf := [], phase := .idle })))
      (c := .framingErrors) (n := 1) trivial (by omega)
    refine ((h12.trans h3 rfl).of_stats_congr rfl rfl rfl).congr fun c => ?_
    cases c <;> simp [remainderDelta, hl]
  · rename_i hl
    have h3 := CountsMoved.of_addTo
      (s := bump .invalidRequests (bump .totalRequests
        (emit (.frameReceived s.buf false) { s with buf := [], phase := .idle })))
      (c := .crcErrors) (n := 1) trivial (by omega)
    refine ((h12.trans h3 rfl).of_stats_congr rfl rfl rfl).congr fun c => ?_
    cases c <;> simp [remainderDelta, hl]

/-- What a discarded remainder leaves (41_synchronizer.md R177). -/
theorem discardRemainder_fields (s : State) :
    (discardRemainder s).buf = [] ∧ (discardRemainder s).phase = .idle ∧ (discardRemainder s).dev = s.dev ∧
      (discardRemainder s).cfg = s.cfg ∧ (discardRemainder s).inputs = s.inputs := by
  unfold discardRemainder recordRemainder
  split <;> simp

theorem Accounts.discardRemainder (s : State) : Accounts s (discardRemainder s) := by
  have h := ((Accounts.of_eq (s := s) (t := { s with buf := [], phase := .idle }) rfl rfl rfl).trans
    (.emit (.frameReceived s.buf false) _)).trans ((Accounts.bump .totalRequests _).trans (.bump .invalidRequests _))
  unfold Machine.discardRemainder recordRemainder
  split
  · exact h.trans ((Accounts.bump _ _).trans (.record ..))
  · exact h.trans ((Accounts.bump _ _).trans (.record ..))

theorem Accounts.overflow (s : State) : Accounts s (overflow s) := by
  have h := (Accounts.bump .bytesReceived s).trans
    (.of_eq (t := { Machine.bump .bytesReceived s with buf := [], phase := .idle }) rfl rfl rfl)
  exact h.trans (((Accounts.bump .totalRequests _).trans (.bump .invalidRequests _)).trans
    ((Accounts.bump .framingErrors _).trans (.record ..)))

theorem Accounts.receiveByte (b : Byte) (s : State) : Accounts s (receiveByte b s) := by
  unfold Machine.receiveByte
  split
  · exact (Accounts.bump .bytesReceived s).trans (.of_eq rfl rfl rfl)
  · split
    · exact (Accounts.bump .bytesReceived s).trans (.of_eq rfl rfl rfl)
    · exact .overflow s
  · exact .refl s
  · exact .refl s

/-- A received byte leaves the devices and the inputs behind it (41_synchronizer.md R162-R166). -/
theorem receiveByte_fields (b : Byte) (s : State) :
    (receiveByte b s).dev = s.dev ∧ (receiveByte b s).inputs = s.inputs := by
  unfold receiveByte
  split <;> (try split) <;> simp

/-- A silence changes nothing but the phase (41_synchronizer.md R171, R172). -/
theorem silence_fields (e : Nat) (s : State) :
    (silence e s).dev = s.dev ∧ (silence e s).inputs = s.inputs ∧ (silence e s).cfg = s.cfg ∧
      (silence e s).stats = s.stats ∧ (silence e s).outputs = s.outputs ∧ (silence e s).buf = s.buf ∧
      (silence e s).ring = s.ring := by
  unfold silence
  split <;> simp

/-- Where the block's own turn comes next, the state it extracts from differs in the host's queue alone. -/
theorem Extracts.fields {s u : State} (h : Extracts s u) :
    s.phase = .extracting ∧ u.phase = .extracting ∧ u.buf = s.buf ∧ u.cfg = s.cfg ∧ u.dev = s.dev ∧
      u.stats = s.stats ∧ u.ring = s.ring ∧ u.outputs = s.outputs ∧
      (OwnTurn s ∨ s.inputs.head? = some .extract) := by
  rcases h with ⟨h, rfl⟩ | ⟨h, q, hq, rfl⟩
  · exact ⟨h.1, h.1, rfl, rfl, rfl, rfl, rfl, rfl, .inl h⟩
  · exact ⟨h, h, rfl, rfl, rfl, rfl, rfl, rfl, .inr (by simp [hq])⟩

/-- Every step but ClearStats and Reset only accounts (44_statistics.md R301, R320). -/
theorem Accounts.step {s t : State} (h : Machine.step s = .next t) (h1 : s.inputs.head? ≠ some .clearStats)
    (h2 : s.inputs.head? ≠ some .reset) : Accounts s t := by
  rcases step_cases h with ⟨u, hu, hx⟩ | ⟨-, -, rfl⟩ | ⟨b, q, -, -, rfl⟩ | ⟨e, q, hi, rfl⟩ | ⟨q, -, -, rfl⟩ |
    ⟨q, hi, rfl⟩ | ⟨q, -, rfl⟩ | ⟨q, -, rfl⟩ | ⟨q, hi, -, rfl⟩
  · obtain ⟨-, -, -, e1, -, e2, -, e3, -⟩ := hu.fields
    rcases hx with ⟨i, rest, -, rfl⟩ | ⟨-, rfl⟩
    · exact (Accounts.of_eq (t := dropFrame rest u) e1 e2 e3).trans (.afterRequest i _)
    · exact (Accounts.of_eq e1 e2 e3).trans (.discardRemainder _)
  · exact .refl _
  · exact (Accounts.of_eq (s := s) (t := { s with inputs := q }) rfl rfl rfl).trans (.receiveByte _ _)
  · obtain ⟨-, -, a, b, c, -⟩ := silence_fields e { s with inputs := q }
    exact .of_eq a b c
  · exact .of_eq rfl rfl rfl
  · simp [hi] at h1
  · exact (Accounts.of_eq (s := s) (t := { s with inputs := q }) rfl rfl rfl).trans (.emit _ _)
  · exact .of_eq rfl rfl rfl
  · simp [hi] at h2

end Sys2Proof.Machine
end

