-- ==== Sys2Proof/Tests/Slice0.lean ====
section
/-! SUPPORT. Small tests. Every expected value is written out from spec/95_test_vectors.md (V and P numbers) or from the
rule named; part 5 shows for every statement with hypotheses that they can be met together. -/

set_option Elab.async false  -- one thread for the many small kernel evaluations below

namespace Sys2Proof.Tests

open Sys2Proof.Machine

/-- A reset block under `c` whose buffer holds `f` and whose frame gap has been seen. -/
def readyWith (c : Cfg) (f : List Byte) : State := { State.resetWith c with phase := .extracting, buf := f }

/-- The same under the configuration of the test vectors. -/
def ready (f : List Byte) : State := readyWith Cfg.default f

/-- A reset block that is receiving, with `f` buffered and the inputs `q` to come. -/
def receiving (f : List Byte) (q : List Input) : State :=
  { State.reset with phase := .receiving, buf := f, inputs := q }

/-- `p` holds of the next state, and there is one. -/
def nextHas (o : Host.Outcome State Fault Refusal) (p : State → Bool) : Bool :=
  match o with
  | .next t => p t
  | _ => false

/-- The step puts out exactly the frame, `middle`, and the response `r`. -/
def answers (s : State) (middle : List Output) (r : List Byte) : Bool :=
  nextHas (step s) fun t => t.outputs == [.frameReceived s.buf true] ++ middle ++ [.tx r, .responseSent r]

/-! ## 1. CRC engine -/

theorem test_crc_known_answer : crc16 [0x01, 0x03, 0x00, 0x00, 0x00, 0x01] = 0x0A84#16 := by decide +kernel  -- V1
theorem test_crc_check_value : crc16 [0x31, 0x32, 0x33, 0x34, 0x35, 0x36, 0x37, 0x38, 0x39] = 0x4B37#16 := by
  decide +kernel  -- V4
theorem test_crc_empty_and_step : crc16 [] = 0xFFFF#16 ∧ crcStep 0xFFFF#16 0x01#8 = 0x807E#16 := by decide +kernel  -- V7
theorem test_append_crc : appendCrc [0x01, 0x03] = [0x01, 0x03, 0x40, 0x21] ∧ appendCrc [0x01] = [0x01, 0x7E, 0x80] := by
  decide +kernel  -- V5
theorem test_verify_short : verify [0x01, 0x7E, 0x80] = false ∧ verify [0x01, 0x03, 0x40, 0x21] = true := by
  decide +kernel  -- V5
theorem test_verify_swapped : verify [0x01, 0x03, 0x00, 0x00, 0x00, 0x01, 0x0A, 0x84] = false := by
  decide +kernel  -- R143

/-! ## 2. Well-formedness: one term each check refuses -/

theorem test_illformed_read : (Instr.readCoils 1 (.malformed [0, 0, 0, 1])).wf = false := by decide
theorem test_illformed_discrete : (Instr.readDiscreteInputs 1 (.malformed [0, 0, 0, 1])).wf = false := by decide
theorem test_illformed_holding : (Instr.readHoldingRegisters 1 (.malformed [0, 0, 0, 1])).wf = false := by decide
theorem test_illformed_input : (Instr.readInputRegisters 1 (.malformed [0, 0, 0, 1])).wf = false := by decide
theorem test_illformed_coil : (Instr.writeSingleCoil 1 (.malformed [0, 0, 0, 1])).wf = false := by decide
theorem test_illformed_register : (Instr.writeSingleRegister 1 (.malformed [0, 0, 0, 1])).wf = false := by decide
theorem test_illformed_coils_values : (Instr.writeMultipleCoils 1 (.fields 0 8 1 [])).wf = false := by decide
theorem test_illformed_coils_payload : (Instr.writeMultipleCoils 1 (.malformed [0, 0, 0, 8, 1, 7])).wf = false := by decide
theorem test_illformed_registers : (Instr.writeMultipleRegisters 1 (.fields 0 1 2 [0])).wf = false := by decide
theorem test_illformed_function : (Instr.illegalFunction 1 0x10 []).wf = false := by decide
theorem test_wellformed_function : (Instr.illegalFunction 1 0x07 []).wf = true := by decide

/-! ## 3. Decoding: frames written out from 30_encoding.md and 95_test_vectors.md -/

theorem test_decode_readCoils :  -- V36
    decode [0x01, 0x01, 0x00, 0x00, 0x00, 0x0A, 0xBC, 0x0D] = .ok (.readCoils 1 (.fields 0 10)) := by decide +kernel
theorem test_decode_readCoils_malformed :  -- V35
    decode [0x01, 0x01, 0x00, 0x00, 0x50, 0x18] = .ok (.readCoils 1 (.malformed [0x00, 0x00])) := by decide +kernel
theorem test_decode_readDiscreteInputs :  -- V38
    decode [0x01, 0x02, 0x00, 0xFF, 0x00, 0x01, 0x89, 0xFA] = .ok (.readDiscreteInputs 1 (.fields 255 1)) := by
  decide +kernel
theorem test_decode_readHoldingRegisters :  -- V39c
    decode [0x01, 0x03, 0x00, 0xFF, 0x00, 0x02, 0xF4, 0x3B] = .ok (.readHoldingRegisters 1 (.fields 255 2)) := by
  decide +kernel
theorem test_decode_readInputRegisters :  -- V39e
    decode [0x01, 0x04, 0x01, 0x00, 0x00, 0x01, 0x30, 0x36] = .ok (.readInputRegisters 1 (.fields 256 1)) := by
  decide +kernel
theorem test_decode_writeSingleCoil :  -- V43
    decode [0x01, 0x05, 0x00, 0x00, 0x12, 0x34, 0xC0, 0xBD] = .ok (.writeSingleCoil 1 (.fields 0 0x1234)) := by
  decide +kernel
theorem test_decode_writeSingleRegister :  -- V44b
    decode [0x01, 0x06, 0x00, 0x05, 0x12, 0x34, 0x94, 0xBC] = .ok (.writeSingleRegister 1 (.fields 5 0x1234)) := by
  decide +kernel
theorem test_decode_writeMultipleCoils :  -- P4 row 1
    decode [0x02, 0x0F, 0x00, 0x10, 0x00, 0x0C, 0x02, 0xF0, 0x0F, 0xF7, 0xD4] =
      .ok (.writeMultipleCoils 2 (.fields 16 12 2 [0xF0, 0x0F])) := by decide +kernel
theorem test_decode_writeMultipleCoils_malformed :  -- V47c
    decode [0x01, 0x0F, 0x00, 0x00, 0x00, 0x08, 0x01, 0xCD, 0x3F] =
      .ok (.writeMultipleCoils 1 (.malformed [0x00, 0x00, 0x00, 0x08, 0x01])) := by decide +kernel
theorem test_decode_writeMultipleRegisters :  -- P4 row 6
    decode [0x02, 0x10, 0x00, 0xFE, 0x00, 0x02, 0x04, 0xBE, 0xEF, 0xCA, 0xFE, 0xB0, 0xDE] =
      .ok (.writeMultipleRegisters 2 (.fields 254 2 4 [0xBE, 0xEF, 0xCA, 0xFE])) := by decide +kernel
theorem test_decode_illegalFunction :  -- V54
    decode [0x01, 0x2B, 0x0E, 0x01, 0x00, 0x70, 0x77] = .ok (.illegalFunction 1 0x2B [0x0E, 0x01, 0x00]) := by
  decide +kernel
theorem test_decode_refuses :  -- R143, V12
    decode [0x01, 0x03, 0x00] = .error .tooShort ∧
      decode [0x01, 0x03, 0x00, 0x00, 0x00, 0x01, 0x84, 0x0B] = .error .crcMismatch := by decide +kernel
theorem test_fetch_back_to_back :  -- V10
    fetch [0x01, 0x06, 0x00, 0x05, 0x12, 0x34, 0x94, 0xBC, 0x01, 0x03, 0x00, 0x05, 0x00, 0x01, 0x94, 0x0B] =
      some (.writeSingleRegister 1 (.fields 5 0x1234), [0x01, 0x03, 0x00, 0x05, 0x00, 0x01, 0x94, 0x0B]) := by
  decide +kernel
theorem test_decodeTableWord :  -- 30_encoding.md R112; operand bytes zero (log 7)
    decodeTableWord 8 0x01 = some (.readCoils 1 (.fields 0 0)) ∧
      decodeTableWord 8 0x06 = some (.writeSingleRegister 1 (.fields 0 0)) ∧
      decodeTableWord 8 0x0F = some (.writeMultipleCoils 1 (.fields 0 0 0 [])) ∧
      decodeTableWord 8 0x07 = some (.illegalFunction 1 0x07 []) := by decide +kernel
theorem test_withFetchWord_runs :
    ∀ fc ∈ [0x00, 0x01, 0x02, 0x03, 0x04, 0x05, 0x06, 0x0F, 0x10],
      nextHas (step (State.reset.withFetchWord 8 fc)) (fun t => t.phase == .idle && t.stats.responsesSent == 1) = true := by
  decide +kernel

/-! ## 4. One step each -/

theorem test_readCoils_packing :  -- V36
    answers (setCoilCell 0 0 false (setCoilCell 0 9 false (ready [0x01, 0x01, 0x00, 0x00, 0x00, 0x0A, 0xBC, 0x0D]))) []
      [0x01, 0x01, 0x02, 0xFE, 0x01, 0x38, 0x5C] = true := by decide +kernel
theorem test_readCoils_to_end :  -- V32
    answers (readyWith { Cfg.default with compatReadToEnd := true } [0x01, 0x01, 0x00, 0x28, 0x00, 0x00, 0xBC, 0x02]) []
      [0x01, 0x01, 0x01, 0xFF, 0x11, 0xC8] = true := by decide +kernel
theorem test_readDiscreteInputs :  -- V37
    answers (ready [0x01, 0x02, 0x00, 0x00, 0x00, 0x10, 0x79, 0xC6]) []
      [0x01, 0x02, 0x02, 0x00, 0x00, 0xB9, 0xB8] = true := by decide +kernel
theorem test_readDiscreteInputs_address :  -- V38a
    answers (ready [0x01, 0x02, 0x01, 0x00, 0x00, 0x01, 0xB8, 0x36]) []
      [0x01, 0x82, 0x02, 0xC1, 0x61] = true := by decide +kernel
theorem test_readHoldingRegisters :  -- V44b
    answers (setHoldingReg 0 5 0x1234 (setHoldingReg 0 6 0xABCD
      (ready [0x01, 0x03, 0x00, 0x05, 0x00, 0x02, 0xD4, 0x0A]))) []
      [0x01, 0x03, 0x04, 0x12, 0x34, 0xAB, 0xCD, 0x00, 0x20] = true := by decide +kernel
theorem test_readHoldingRegisters_unencodable :  -- V39b
    answers (ready [0x01, 0x03, 0x00, 0x00, 0x00, 0x7E, 0xC5, 0xEA]) []
      [0x01, 0x83, 0x04, 0x40, 0xF3] = true := by decide +kernel
theorem test_readInputRegisters :  -- V39d
    answers (ready [0x01, 0x04, 0x00, 0x00, 0x00, 0x02, 0x71, 0xCB]) []
      [0x01, 0x04, 0x04, 0x00, 0x00, 0x00, 0x00, 0xFB, 0x84] = true := by decide +kernel
theorem test_readInputRegisters_address :  -- V39e
    answers (ready [0x01, 0x04, 0x01, 0x00, 0x00, 0x01, 0x30, 0x36]) []
      [0x01, 0x84, 0x02, 0xC2, 0xC1] = true := by decide +kernel
theorem test_writeSingleCoil_opens :  -- V40
    answers (ready [0x01, 0x05, 0x00, 0x00, 0xFF, 0x00, 0x8C, 0x3A]) [.lockStateChanged 1 0 false]
      [0x01, 0x05, 0x00, 0x00, 0xFF, 0x00, 0x8C, 0x3A] = true := by decide +kernel
theorem test_writeSingleCoil_value_first :  -- V43a
    answers (ready [0x01, 0x05, 0x00, 0x30, 0x12, 0x34, 0xC0, 0xB2]) []
      [0x01, 0x85, 0x03, 0x02, 0x91] = true := by decide +kernel
theorem test_writeSingleRegister :  -- V44
    nextHas (step (ready [0x01, 0x06, 0x00, 0xFF, 0xFF, 0xFF, 0xB8, 0x4A])) (fun t => holdingReg 0 255 t == 0xFFFF#16) =
      true := by decide +kernel
theorem test_writeSingleRegister_address :  -- V44a
    answers (ready [0x01, 0x06, 0x01, 0x00, 0x12, 0x34, 0x85, 0x41]) []
      [0x01, 0x86, 0x02, 0xC3, 0xA1] = true := by decide +kernel
theorem test_writeMultipleCoils_direct :  -- V45
    answers (readyWith { Cfg.default with multiCoilMode := .direct }
      [0x01, 0x0F, 0x00, 0x00, 0x00, 0x08, 0x01, 0x0F, 0xBE, 0x91])
      [.lockStateChanged 1 4 false, .lockStateChanged 1 5 false, .lockStateChanged 1 6 false, .lockStateChanged 1 7 false]
      [0x01, 0x0F, 0x00, 0x00, 0x00, 0x08, 0x54, 0x0D] = true := by decide +kernel
theorem test_writeMultipleCoils_address :  -- V47
    answers (ready [0x01, 0x0F, 0x00, 0x28, 0x00, 0x09, 0x02, 0xFF, 0x01, 0x63, 0x64]) []
      [0x01, 0x8F, 0x02, 0xC5, 0xF1] = true := by decide +kernel
theorem test_writeMultipleRegisters :  -- V48
    nextHas (step (ready [0x01, 0x10, 0x00, 0x00, 0x00, 0x02, 0x04, 0x00, 0x0A, 0x01, 0x02, 0x53, 0xFC]))
      (fun t => holdingReg 0 0 t == 0x000A#16 && holdingReg 0 1 t == 0x0102#16) = true := by decide +kernel
theorem test_writeMultipleRegisters_malformed :  -- V48c
    answers (ready [0x01, 0x10, 0x00, 0x00, 0x00, 0x02, 0x04, 0x00, 0x0A, 0x01, 0x53, 0x92]) []
      [0x01, 0x90, 0x04, 0x4D, 0xC3] = true := by decide +kernel
theorem test_illegalFunction :  -- V53
    answers (ready [0x01, 0x07, 0x41, 0xE2])
      [.errorOccurred { kind := .unsupported, raw := [0x01, 0x07, 0x41, 0xE2], expected := none, offset := some 1 }]
      [0x01, 0x87, 0x01, 0x82, 0x30] = true := by decide +kernel
theorem test_illegalFunction_bit7 :  -- V55
    answers (ready [0x01, 0x81, 0x00, 0x40, 0x50])
      [.errorOccurred { kind := .unsupported, raw := [0x01, 0x81, 0x00, 0x40, 0x50], expected := none, offset := some 1 }]
      [0x01, 0x81, 0x01, 0x81, 0x90] = true := by decide +kernel
theorem test_foreign_address_silent :  -- V51
    nextHas (step (ready [0x02, 0x07, 0x41, 0x12])) (fun t =>
      t.outputs == [.frameReceived [0x02, 0x07, 0x41, 0x12] true] && t.stats.totalRequests == 1 &&
        t.stats.validRequests == 0) = true := by decide +kernel
theorem test_corrupt_frame_discarded :  -- V12
    nextHas (step (ready [0x01, 0x03, 0x00, 0x00, 0x00, 0x01, 0x84, 0x0B])) (fun t =>
      t.ring == [{ kind := .crc, raw := [0x01, 0x03, 0x00, 0x00, 0x00, 0x01, 0x84, 0x0B], expected := some 0x0A84,
                   offset := some 6 }] && t.stats.crcErrors == 1 && t.phase == .idle) = true := by decide +kernel
theorem test_short_remainder_discarded :  -- V11
    nextHas (step (ready [0x01, 0x03, 0x00])) (fun t => t.ring ==
      [{ kind := .framing, raw := [0x01, 0x03, 0x00], expected := none, offset := none }] &&
        t.stats.framingErrors == 1) = true := by decide +kernel
theorem test_overflow :  -- V16
    nextHas (step (receiving (List.replicate 4096 0) [.rxByte 0])) (fun t =>
      t.buf == [] && t.phase == .idle && t.stats.framingErrors == 1 && t.stats.totalRequests == 1) = true := by
  decide +kernel
theorem test_silence_below_gap :  -- V18, V20
    nextHas (step (receiving [0x01] [.silence 4010416])) (fun t => t.phase == .receiving) = true ∧
      nextHas (step (receiving [0x01] [.silence 4010417])) (fun t => t.phase == .extracting) = true := by decide +kernel
theorem test_gap_boundaries :  -- V21-V25
    gapReached { Cfg.default with baud := 19200 } 2005208 = false ∧
      gapReached { Cfg.default with baud := 19200 } 2005209 = true ∧
      gapReached { Cfg.default with baud := 25666 } 1500038 = false ∧
      gapReached { Cfg.default with baud := 25666 } 1500039 = true ∧
      gapReached { Cfg.default with baud := 25667 } 1499999 = false ∧
      gapReached { Cfg.default with baud := 25667 } 1500000 = true := by decide +kernel
theorem test_counter_saturates :  -- V60
    stat .totalRequests (bump .totalRequests
      { State.reset with stats := { Stats.zero 1 with totalRequests := 4294967295 } }) = 4294967295 := by decide +kernel
theorem test_stop_between_frames :  -- P5 steps 3 and 4
    nextHas (step { ready [0x01] with inputs := [.stop] }) (fun t => t.phase == .stopped && t.buf == [0x01]) = true ∧
      nextHas (step { State.reset with phase := .stopped, inputs := [.rxByte 1] })
        (fun t => t.phase == .stopped && t.buf == [] && t.stats.bytesReceived == 0) = true := by decide +kernel
theorem test_config_register : cfgRegister 2 State.reset = .ok 1 ∧
    cfgRegister 6 State.reset = .error (.unassignedRegister 6) := by decide +kernel  -- R46

/-! ## 5. Witnesses: states and operands that meet the hypotheses of the statements -/

/-- READ_HOLDING_REGISTERS a=1 start=0 count=1 (V39). -/
def frameV39 : List Byte := [0x01, 0x03, 0x00, 0x00, 0x00, 0x01, 0x84, 0x0A]

/-- WRITE_SINGLE_COIL a=1 addr=0 value=0xFF00 (V40). -/
def frameV40 : List Byte := [0x01, 0x05, 0x00, 0x00, 0xFF, 0x00, 0x8C, 0x3A]

/-- The hypothesis of every statement about a function at its own device. -/
theorem witness_names : Names State.reset 1 0 ∧ slotOf State.reset.cfg 1 = some 0 := by
  refine ⟨⟨by decide, by decide, by decide, by decide⟩, by decide⟩

theorem witness_ownTurn : OwnTurn (ready frameV39) ∧ OwnTurn { ready frameV39 with inputs := [.rxByte 7] } :=
  ⟨⟨rfl, .inl rfl⟩, rfl, .inr ⟨7, [], rfl⟩⟩

/-- The invariant holds of a state in which the next step runs a frame. -/
theorem witness_inv : StateInv (ready frameV40) where
  cfgValid := by decide
  devLength := by decide
  perDeviceLength := by decide
  bufBound := by decide
  idleEmpty := by decide
  busyNonempty := by decide
  ringBound := by decide
  recordsOk := fun r h => by cases h
  countersBounded := fun c => by
    have h : stat c (ready frameV40) = 0 := get_zero c 1
    omega
  inputRegsZero := fun d h => by
    obtain rfl : d = Device.reset := by simpa [ready, readyWith, State.resetWith, Cfg.default] using h
    rfl
  discreteInputsFalse := fun d h => by
    obtain rfl : d = Device.reset := by simpa [ready, readyWith, State.resetWith, Cfg.default] using h
    rfl

theorem witness_AppendedCrcVerifiesFromTwoBytesOn : verify (appendCrc [0x01, 0x03]) = true ∧
    verify (appendCrc [0x01]) = false := by decide +kernel
theorem witness_VerifyComparesTheTrailingBytes : ([0x01, 0x7E, 0x80] : List Byte).length < 4 ∧
    2 ≤ ([0x01, 0x03] : List Byte).length ∧ verify ([0x01, 0x03] ++ [0x40, 0x21]) = true := by decide +kernel
theorem witness_SingleBitErrorsAreDetected : verify frameV39 = true ∧ 7 < frameV39.length ∧
    verify (flipBit frameV39 7 7) = false ∧ verify (flipBit frameV39 0 0) = false := by decide +kernel
theorem witness_DecodeOfEncode : (Instr.writeMultipleCoils 1 (.fields 0 8 1 [0x0F])).wf = true := by decide
theorem witness_EncodeOfDecode : decode frameV39 = .ok (.readHoldingRegisters 1 (.fields 0 1)) := by decide +kernel
theorem witness_DecodingIsTotalOnValidFrames : verify frameV39 = true ∧ verify [0x01, 0x03, 0x00] = false ∧
    verify [0x01, 0x03, 0x00, 0x00] = false := by decide +kernel
theorem witness_FunctionByteSelectsTheOperation : (0x00#8) ∉ supportedFunctions ∧ (0x07#8) ∉ supportedFunctions ∧
    (0x0E#8) ∉ supportedFunctions ∧ (0x11#8) ∉ supportedFunctions ∧ (0xFF#8) ∉ supportedFunctions := by decide
theorem witness_FieldsLieWhereTheFormatsSay : ([0x00] : List Byte).length ≠ 4 ∧
    ([0, 0, 0, 1] : List Byte).length < 5 ∧ ([0x0F] : List Byte).length = (1#8).toNat := by decide
theorem witness_StepRunsTheDecodedInstruction : OwnTurn (ready frameV39) ∧
    fetch (ready frameV39).buf = some (.readHoldingRegisters 1 (.fields 0 1), []) ∧
    (({ ready frameV39 with inputs := [.extract] } : State).phase = .extracting) := by
  refine ⟨witness_ownTurn.1, ?_, rfl⟩
  decide +kernel
theorem witness_FetchTakesTheShortestValidFrame : 4 ≤ 8 ∧ 8 ≤ frameV39.length ∧ verify (frameV39.take 8) = true ∧
    (∀ m < 8, verify (frameV39.take m) = false) ∧
    decode (frameV39.take 8) = .ok (.readHoldingRegisters 1 (.fields 0 1)) ∧
    fetch [0x55, 0xAA] = none := by decide +kernel
theorem witness_RemainderIsDiscardedAndRecorded : OwnTurn (ready [0x01, 0x03, 0x00]) ∧
    Extracts (ready [0x01, 0x03, 0x00]) (ready [0x01, 0x03, 0x00]) ∧
    Extracts { ready [0x01, 0x03, 0x00, 0x00] with inputs := [.extract, .stop] }
      { ready [0x01, 0x03, 0x00, 0x00] with inputs := [.stop] } ∧
    (ready [0x01, 0x03, 0x00]).buf.length < 4 ∧ ¬ (ready [0x01, 0x03, 0x00, 0x00]).buf.length < 4 ∧
    verify [0x01, 0x03, 0x00, 0x00] = false := by
  refine ⟨⟨rfl, .inl rfl⟩, .inl ⟨⟨rfl, .inl rfl⟩, rfl⟩, .inr ⟨rfl, [.stop], rfl, rfl⟩, by decide, by decide, ?_⟩
  decide +kernel
theorem witness_ByteInIdleStartsTheBuffer : ({ State.reset with inputs := [.rxByte 1] } : State).phase = .idle := by
  decide
theorem witness_ByteInReceivingIsAppended : (receiving (List.replicate 4095 0) [.rxByte 1]).phase = .receiving ∧
    (receiving (List.replicate 4095 0) [.rxByte 1]).buf.length < 4096 := by decide +kernel
theorem witness_ByteAtAFullBufferDiscardsIt : (receiving (List.replicate 4096 0) [.rxByte 1]).phase = .receiving ∧
    (receiving (List.replicate 4096 0) [.rxByte 1]).buf.length = 4096 := by decide +kernel
theorem witness_ByteIsHeldWhileExtracting : ({ ready frameV39 with inputs := [.rxByte 1] } : State).phase = .extracting ∧
    ({ ready frameV39 with inputs := [.rxByte 1] } : State).buf ≠ [] := by decide
theorem witness_ByteWhenStoppedIsDropped :
    ({ State.reset with phase := .stopped, inputs := [.rxByte 1] } : State).phase = .stopped := by decide
theorem witness_GapIsReachedFromTheRationalThresholdOn : 0 < Cfg.default.baud ∧
    gapReached Cfg.default 4010416 = false ∧ gapReached Cfg.default 4010417 = true := by decide +kernel
theorem witness_SilenceOfTheGapStartsExtraction : (receiving [0x01] [.silence 4010417]).phase = .receiving ∧
    gapReached (receiving [0x01] [.silence 4010417]).cfg 4010417 = true := by decide +kernel
theorem witness_OtherSilenceHasNoEffect :
    ¬ ((receiving [0x01] [.silence 4010416]).phase = .receiving ∧
      gapReached (receiving [0x01] [.silence 4010416]).cfg 4010416 = true) := by decide +kernel
theorem witness_ExtractionIsEnteredOnlyAtTheGap : nextHas (step (receiving [0x01] [.silence 4010417]))
    (fun t => t.phase == .extracting) = true ∧ (receiving [0x01] [.silence 4010417]).phase ≠ .extracting := by
  decide +kernel
theorem witness_ExtractionEndsWithinItsBound : OwnTurn (ready (frameV39 ++ [0x55, 0xAA])) := ⟨rfl, .inl rfl⟩
theorem witness_BackToBackFramesRunInOrder :
    encode (.readHoldingRegisters 1 (.fields 0 1)) = frameV39 ∧ encode (.writeSingleCoil 1 (.fields 0 0xFF00)) = frameV40 ∧
    (∀ m < 8, verify (frameV39.take m) = false) ∧ (∀ m < 8, verify (frameV40.take m) = false) := by decide +kernel
theorem witness_ForeignAddressIsSilent :  -- just below and just above the table
    (0#8).toNat < State.reset.cfg.baseAddr ∧ State.reset.cfg.baseAddr + State.reset.cfg.nDev ≤ (2#8).toNat := by decide
theorem witness_ReadCoilsAnswers :  -- one operand pair per clause, at the boundary
    Names (readyWith { Cfg.default with compatReadToEnd := true } []) 1 0 ∧ State.reset.cfg.compatReadToEnd = false ∧
    (0#16).toNat = 0 ∧ 48 ≤ (48#16).toNat ∧ (47#16).toNat < 48 ∧ 48 < (47#16).toNat + (2#16).toNat ∧
    (47#16).toNat + (1#16).toNat ≤ 48 :=
  ⟨⟨by decide, by decide, by decide, by decide⟩, by decide⟩
theorem witness_ReadDiscreteInputsAnswers : (1#16).toNat ≠ 0 ∧ 256 < (255#16).toNat + (2#16).toNat ∧
    (255#16).toNat + (1#16).toNat ≤ 256 ∧ (0#16).toNat + (256#16).toNat ≤ 256 := by decide
theorem witness_ReadRegistersAnswer :  -- holding and input registers
    256 < (131#16).toNat + (126#16).toNat ∧ 125 < (126#16).toNat ∧ (130#16).toNat + (126#16).toNat ≤ 256 ∧
    (125#16).toNat ≤ 125 ∧ (131#16).toNat + (125#16).toNat ≤ 256 := by decide
theorem witness_WriteSingleCoilWritesAndEchoes : (0x1234#16 ≠ 0x0000 ∧ 0x1234#16 ≠ 0xFF00) ∧ 48 ≤ (48#16).toNat ∧
    (47#16).toNat < 48 := by decide
theorem witness_WriteSingleRegisterWritesAndEchoes : 256 ≤ (256#16).toNat ∧ (255#16).toNat < 256 := by decide
theorem witness_WriteMultipleCoilsWritesTheRun : (2#8).toNat ≠ ((8#16).toNat + 7) / 8 ∧
    (2#8).toNat = ((9#16).toNat + 7) / 8 ∧ 48 < (40#16).toNat + (9#16).toNat ∧
    (1#8).toNat = ((8#16).toNat + 7) / 8 ∧ (40#16).toNat + (8#16).toNat ≤ 48 := by decide
theorem witness_WriteMultipleRegistersWritesTheRun : (3#8).toNat ≠ 2 * (2#16).toNat ∧
    (4#8).toNat = 2 * (2#16).toNat ∧ 256 < (255#16).toNat + (2#16).toNat ∧ (254#16).toNat + (2#16).toNat ≤ 256 := by
  decide
theorem witness_exec_answers :  -- a request at its own device: the hypotheses of the frames and of the response format
    slotOf State.reset.cfg (Instr.writeSingleCoil 1 (.fields 0 0xFF00)).address = some 0 ∧
    slotOf State.reset.cfg (Instr.writeSingleCoil 2 (.fields 0 0xFF00)).address ≠ some 0 ∧
    nextHas (exec (.writeSingleCoil 1 (.fields 0 0xFF00)) State.reset) (fun t => t.dev != State.reset.dev) = true ∧
    nextHas (exec (.writeSingleCoil 2 (.fields 0 0xFF00)) State.reset) (fun t => coil 0 0 t) = true := by
  decide +kernel
theorem witness_RequestsDependOnTheirDeviceAlone :  -- two states that differ in the other device
    let c := { Cfg.default with nDev := 2 }
    (setCoilCell 1 0 false (State.resetWith c)).cfg = (State.resetWith c).cfg ∧
    (setCoilCell 1 0 false (State.resetWith c)).dev[0]? = (State.resetWith c).dev[0]? ∧
    coil 1 0 (setCoilCell 1 0 false (State.resetWith c)) ≠ coil 1 0 (State.resetWith c) ∧ slotOf c 1 = some 0 :=
  ⟨rfl, rfl, by decide +kernel, by decide⟩
theorem witness_RepeatedRequestsAreIdempotent : State.reset.dev.length = State.reset.cfg.nDev ∧
    nextHas (exec (.writeSingleCoil 1 (.fields 0 0xFF00)) State.reset) (fun t =>
      nextHas (exec (.writeSingleCoil 1 (.fields 0 0xFF00)) t) fun u => u.stats.locksOpened == 1) = true := by
  decide +kernel
theorem witness_ResetGivesEveryPieceItsResetValue : State.reset.cfg.Valid := by decide
theorem witness_ResetRefusesAnInvalidConfiguration :  -- one configuration per clause
    step { State.resetWith { Cfg.default with baud := 0 } with inputs := [.reset] } =
      .refused .invalidConfiguration ∧
    step { State.resetWith { Cfg.default with nDev := 0 } with inputs := [.reset] } =
      .refused .invalidConfiguration ∧
    10 < ({ Cfg.default with nDev := 11 } : Cfg).nDev ∧
    255 < ({ Cfg.default with baseAddr := 256 } : Cfg).baseAddr + 1 - 1 := ⟨rfl, rfl, by decide, by decide⟩
theorem witness_OnlyResetLeavesStopped : ({ State.reset with phase := .stopped } : State).inputs.head? ≠ some .reset ∧
    ({ State.reset with phase := .stopped, inputs := [.snapshot] } : State).inputs.head? ≠ some .clearStats ∧
    ({ State.reset with phase := .stopped, inputs := [.clearStats] } : State).inputs.head? = some .clearStats := by decide
theorem witness_StatisticsRegistersHaveTheirNumbers : State.reset.cfg.nDev ≤ 10 ∧
    statRegister 16 State.reset = .ok 0 ∧ statRegister 39 State.reset = .ok 0 ∧
    statRegister 15 State.reset = .error (.unassignedRegister 15) ∧
    statRegister 17 State.reset = .error (.unassignedRegister 17) ∧
    statRegister 40 State.reset = .error (.unassignedRegister 40) := ⟨by decide, rfl, rfl, rfl, rfl, rfl⟩
theorem witness_storage_changes :  -- a step that changes the storage, by the block's own turn and by the extract input
    nextHas (step (ready frameV40)) (fun t => t.dev != (ready frameV40).dev) = true ∧
    nextHas (step { ready frameV40 with inputs := [.extract] }) (fun t => t.dev != (ready frameV40).dev) = true ∧
    (ready frameV40).inputs.head? ≠ some .reset ∧ (ready frameV40).inputs.head? ≠ some .clearStats := by decide +kernel
theorem witness_BlockWaitsForInput : State.reset.inputs = [] ∧ State.reset.phase ≠ .extracting := by decide
theorem witness_ExtractOutsideExtractingIsPassedOver :
    ({ State.reset with inputs := [.extract] } : State).phase ≠ .extracting ∧
      (receiving [0x01] [.extract]).phase ≠ .extracting := by decide
theorem witness_InvariantHoldsAtReset : ({ Cfg.default with nDev := 10, baseAddr := 246 } : Cfg).Valid := by decide

end Sys2Proof.Tests
end

section
/-! PROOFS. The state of the block (10_state.md): one device is isolated from every other, what no step writes, the
reset values and the numbered registers. -/

namespace Sys2Proof.Machine

variable {k : Nat} {o o' : List Output} {s s' t : State}

/-! ## Isolation of the devices (10_state.md R41) -/

/-- A request writes no device but the one its address names (10_state.md R41, 42_dispatch.md R202). -/
theorem afterRequest_dev_of_ne (i : Instr) (h : slotOf s.cfg i.address ≠ some k) :
    (afterRequest i s).dev[k]? = s.dev[k]? := by
  rcases afterRequest_devices i s with hdev | ⟨k', hk', heff⟩
  · rw [hdev]
  · have hne : k ≠ k' := fun hkk => h (hkk ▸ hk')
    rcases heff with ⟨-, -, hother, -⟩ | ⟨-, -, hother, -⟩ | ⟨-, -, hother, -⟩ <;> exact hother k hne

/-- Settles O36: a request writes one kind of cell of the device it addresses, or nothing. -/
theorem otherDevicesAreUntouched : Obligations.OtherDevicesAreUntouched := by
  intro i s t k hexec hslot
  obtain rfl := exec_eq_next.1 hexec
  exact afterRequest_dev_of_ne i hslot

/-- Two replies of a function rule that cannot be told apart at slot `k`: the same exception, or the same response with
states that are alike. -/
def RepliesAlike (k : Nat) (o o' : List Output) (r r' : Reply) : Prop :=
  (∃ e, r = .exception e ∧ r' = .exception e) ∨
    ∃ u u' rbody, r = .normal u rbody ∧ r' = .normal u' rbody ∧ Alike k o o' u u'

theorem RepliesAlike.exception (e : ExceptionCode) : RepliesAlike k o o' (.exception e) (.exception e) :=
  .inl ⟨e, rfl, rfl⟩

theorem RepliesAlike.normal {u u' : State} (rbody : List Byte) (h : Alike k o o' u u') :
    RepliesAlike k o o' (.normal u rbody) (.normal u' rbody) :=
  .inr ⟨u, u', rbody, rfl, rfl, h⟩

namespace Alike

/-- States with one configuration that agree on slot `k` are alike from where they stand. -/
theorem start (hcfg : s'.cfg = s.cfg) (hdev : s'.dev[k]? = s.dev[k]?) : Alike k s.outputs s'.outputs s s' :=
  ⟨hcfg, hdev, [], by simp, by simp⟩

/-- What alike states have put out since `o` and `o'` is the same. -/
theorem outputs_drop (h : Alike k o o' s s') : s'.outputs.drop o'.length = s.outputs.drop o.length := by
  obtain ⟨x, hx, hx'⟩ := h.out
  simp [hx, hx']

theorem statusBit (h : Alike k o o' s s') (i : Nat) : statusBit k i s' = statusBit k i s := by
  unfold Machine.statusBit statusByte; rw [h.device]

theorem discreteInput (h : Alike k o o' s s') (i : Nat) : discreteInput k i s' = discreteInput k i s := by
  unfold Machine.discreteInput; rw [h.device]

theorem holdingReg (h : Alike k o o' s s') (i : Nat) : holdingReg k i s' = holdingReg k i s := by
  unfold Machine.holdingReg; rw [h.device]

theorem inputReg (h : Alike k o o' s s') (i : Nat) : inputReg k i s' = inputReg k i s := by
  unfold Machine.inputReg; rw [h.device]

/-! Each function rule answers alike from alike states (43_functions.md R240-R290). -/

theorem readCoils (h : Alike k o o' s s') (a : Byte) (x : ReadArgs) :
    RepliesAlike k o o' (readCoils a x k s) (readCoils a x k s') := by
  unfold Machine.readCoils
  rw [h.cfg]
  split
  · exact .exception _
  · simp only [h.resyncStatus.statusBit]
    exact .normal _ h.resyncStatus

theorem readDiscreteInputs (h : Alike k o o' s s') (a : Byte) (x : ReadArgs) :
    RepliesAlike k o o' (readDiscreteInputs a x k s) (readDiscreteInputs a x k s') := by
  unfold Machine.readDiscreteInputs
  split
  · exact .exception _
  · simp only [h.discreteInput]
    exact .normal _ h

theorem readHoldingRegisters (h : Alike k o o' s s') (a : Byte) (x : ReadArgs) :
    RepliesAlike k o o' (readHoldingRegisters a x k s) (readHoldingRegisters a x k s') := by
  unfold Machine.readHoldingRegisters
  split
  · exact .exception _
  · simp only [h.holdingReg]
    exact .normal _ h

theorem readInputRegisters (h : Alike k o o' s s') (a : Byte) (x : ReadArgs) :
    RepliesAlike k o o' (readInputRegisters a x k s) (readInputRegisters a x k s') := by
  unfold Machine.readInputRegisters
  split
  · exact .exception _
  · simp only [h.inputReg]
    exact .normal _ h

theorem writeSingleCoil (h : Alike k o o' s s') (a : Byte) (x : WriteArgs) :
    RepliesAlike k o o' (writeSingleCoil a x k s) (writeSingleCoil a x k s') := by
  unfold Machine.writeSingleCoil
  rw [h.cfg]
  split
  · exact .exception _
  · exact .normal _ (h.setCoil ..)

theorem writeSingleRegister (h : Alike k o o' s s') (a : Byte) (x : WriteArgs) :
    RepliesAlike k o o' (writeSingleRegister a x k s) (writeSingleRegister a x k s') := by
  unfold Machine.writeSingleRegister
  split
  · exact .exception _
  · exact .normal _ (h.setHoldingReg ..)

theorem writeMultipleCoils (h : Alike k o o' s s') (a : Byte) (x : MultiArgs) :
    RepliesAlike k o o' (writeMultipleCoils a x k s) (writeMultipleCoils a x k s') := by
  unfold Machine.writeMultipleCoils
  rw [h.cfg]
  split
  · exact .exception _
  · exact .normal _ (h.setCoils ..)

theorem writeMultipleRegisters (h : Alike k o o' s s') (a : Byte) (x : MultiArgs) :
    RepliesAlike k o o' (writeMultipleRegisters a x k s) (writeMultipleRegisters a x k s') := by
  unfold Machine.writeMultipleRegisters
  split
  · exact .exception _
  · exact .normal _ (h.setHoldingRegs ..)

theorem serveIllegal {i : Instr} (h : Alike k o o' s s') (hs : slotOf s.cfg i.address = some k) :
    Alike k o o' (serveIllegal i s) (serveIllegal i s') := by
  have hs' : slotOf s'.cfg i.address = some k := by rw [h.cfg]; exact hs
  simp only [Machine.serveIllegal, hs, hs']
  exact ((((h.receiveFrame i).addTo ..).addTo ..).record ..).send _

/-- A request to device `k` keeps states alike at `k` (10_state.md R41). -/
theorem afterRequest {i : Instr} (h : Alike k o o' s s') (hs : slotOf s.cfg i.address = some k) :
    Alike k o o' (afterRequest i s) (afterRequest i s') := by
  cases i with
  | readCoils a x => exact h.serve hs fun _ _ hD => hD.readCoils a x
  | readDiscreteInputs a x => exact h.serve hs fun _ _ hD => hD.readDiscreteInputs a x
  | readHoldingRegisters a x => exact h.serve hs fun _ _ hD => hD.readHoldingRegisters a x
  | readInputRegisters a x => exact h.serve hs fun _ _ hD => hD.readInputRegisters a x
  | writeSingleCoil a x => exact h.serve hs fun _ _ hD => hD.writeSingleCoil a x
  | writeSingleRegister a x => exact h.serve hs fun _ _ hD => hD.writeSingleRegister a x
  | writeMultipleCoils a x => exact h.serve hs fun _ _ hD => hD.writeMultipleCoils a x
  | writeMultipleRegisters a x => exact h.serve hs fun _ _ hD => hD.writeMultipleRegisters a x
  | illegalFunction a fc p => exact h.serveIllegal hs

end Alike

/-- Settles O37: the two runs stay alike at the addressed device. -/
theorem requestsDependOnTheirDeviceAlone : Obligations.RequestsDependOnTheirDeviceAlone := by
  intro i s s' t t' k hslot hcfg hdev ht ht'
  obtain rfl := exec_eq_next.1 ht
  obtain rfl := exec_eq_next.1 ht'
  have h := (Alike.start hcfg hdev).afterRequest hslot
  exact ⟨h.dev, h.outputs_drop⟩

/-! ## What no step writes (10_state.md R39, R40, R46) -/

/-- Settles O48: every step but ClearStats and Reset only accounts, and those two keep the configuration. -/
theorem noStepChangesTheConfiguration : Obligations.NoStepChangesTheConfiguration := by
  intro s t h
  rcases step_cases h with ⟨u, hu, hx⟩ | ⟨-, -, rfl⟩ | ⟨b, q, -, -, rfl⟩ | ⟨e, q, -, rfl⟩ | ⟨q, -, -, rfl⟩ |
    ⟨q, -, rfl⟩ | ⟨q, -, rfl⟩ | ⟨q, -, rfl⟩ | ⟨q, -, -, rfl⟩
  · obtain ⟨-, -, -, hcfg, -⟩ := hu.fields
    rcases hx with ⟨i, rest, -, rfl⟩ | ⟨-, rfl⟩
    · exact (Accounts.afterRequest i _).cfg.trans hcfg
    · exact (Accounts.discardRemainder u).cfg.trans hcfg
  · rfl
  · exact (Accounts.receiveByte b _).cfg
  · obtain ⟨-, -, hcfg, -⟩ := silence_fields e { s with inputs := q }
    exact hcfg
  · rfl
  · rfl
  · rfl
  · rfl
  · rfl

/-- A step whose input is not Reset leaves the device table as it was, or runs the request at the front of the buffer
(20_memory.md R74). -/
theorem step_dev (h : step s = .next t) (hr : s.inputs.head? ≠ some .reset) :
    t.dev = s.dev ∨ ∃ u i rest, Extracts s u ∧ fetch u.buf = some (i, rest) ∧ t = afterRequest i (dropFrame rest u) := by
  rcases step_cases h with ⟨u, hu, hx⟩ | ⟨-, -, rfl⟩ | ⟨b, q, -, -, rfl⟩ | ⟨e, q, -, rfl⟩ | ⟨q, -, -, rfl⟩ |
    ⟨q, -, rfl⟩ | ⟨q, -, rfl⟩ | ⟨q, -, rfl⟩ | ⟨q, hi, -, -⟩
  · rcases hx with ⟨i, rest, hf, rfl⟩ | ⟨-, rfl⟩
    · exact .inr ⟨u, i, rest, hu, hf, rfl⟩
    · obtain ⟨-, -, hdev, -⟩ := discardRemainder_fields u
      obtain ⟨-, -, -, -, hudev, -⟩ := hu.fields
      exact .inl (hdev.trans hudev)
  · exact .inl rfl
  · exact .inl (receiveByte_fields b _).1
  · exact .inl (silence_fields e _).1
  · exact .inl rfl
  · exact .inl rfl
  · exact .inl rfl
  · exact .inl rfl
  · exact absurd (by rw [hi]; rfl) hr

/-- Settles O50: of all steps but Reset only a request writes devices, and none writes the input spaces. -/
theorem inputSpacesAreNeverWritten : Obligations.InputSpacesAreNeverWritten := by
  intro s t k h hr
  rcases step_dev h hr with hdev | ⟨u, i, rest, hu, -, rfl⟩
  · rw [device_congr hdev]; exact ⟨rfl, rfl⟩
  · obtain ⟨-, -, -, -, hudev, -⟩ := hu.fields
    have hdevice : device k (dropFrame rest u) = device k s := device_congr (s := s) hudev k
    rw [← hdevice]
    exact afterRequest_inputSpaces i _ k

/-! ## Reset (10_state.md R50) -/

/-- After reset every slot reads as a device after reset, also one the table does not have (log 11). -/
@[simp] theorem device_resetWith (c : Cfg) (k : Nat) : device k (State.resetWith c) = Device.reset := by
  by_cases hk : k < c.nDev <;> simp [device, State.resetWith, hk]

@[simp] theorem stat_resetWith (c : Cfg) (n : Counter) : stat n (State.resetWith c) = 0 := get_zero n c.nDev

/-- The cells of a device after reset, each by the index it has (10_state.md R50). -/
theorem cells_of_device_reset (h : device k s = Device.reset) :
    (∀ i < 48, coil k i s = true) ∧ (∀ j < 6, statusByte k j s = 0xFF) ∧
      ∀ i < 256, holdingReg k i s = 0 ∧ inputReg k i s = 0 ∧ discreteInput k i s = false := by
  refine ⟨fun i hi => ?_, fun j hj => ?_, fun i hi => ⟨?_, ?_, ?_⟩⟩
  · simp [coil, h, Device.reset, hi]
  · simp [statusByte, h, Device.reset, hj]
  · simp [holdingReg, h, Device.reset, hi]
  · simp [inputReg, h, Device.reset, hi]
  · simp [discreteInput, h, Device.reset, hi]

/-- Settles O45: every slot reads as a device after reset and every counter as 0. -/
theorem resetStateIsTheSpecsTable : Obligations.ResetStateIsTheSpecsTable :=
  ⟨rfl, rfl, rfl, rfl, fun k _ => cells_of_device_reset (device_resetWith _ k), stat_resetWith _, rfl⟩

theorem eq_reset_of_mem_dev_resetWith {c : Cfg} {d : Device} (h : d ∈ (State.resetWith c).dev) : d = Device.reset :=
  List.eq_of_mem_replicate h

theorem stateInv_resetWith {c : Cfg} (hc : c.Valid) : StateInv (State.resetWith c) where
  cfgValid := hc
  devLength := List.length_replicate
  perDeviceLength := List.length_replicate
  bufBound := Nat.zero_le _
  idleEmpty := fun _ => rfl
  busyNonempty := by rintro (h | h) <;> cases h
  ringBound := Nat.zero_le _
  recordsOk := by rintro r ⟨⟩
  countersBounded := fun n => by rw [stat_resetWith]; exact Nat.zero_le _
  inputRegsZero := fun d h => by rw [eq_reset_of_mem_dev_resetWith h]; rfl
  discreteInputsFalse := fun d h => by rw [eq_reset_of_mem_dev_resetWith h]; rfl

/-- Settles O54: the configuration of log 1 is one of the valid ones. -/
theorem invariantHoldsAtReset : Obligations.InvariantHoldsAtReset :=
  ⟨stateInv_resetWith (by decide), fun _ => stateInv_resetWith⟩

/-! ## The numbered registers (10_state.md R46, R47) -/

theorem cfgRegister_of_six_le {n : Nat} (h : 6 ≤ n) (s : State) : cfgRegister n s = .error (.unassignedRegister n) := by
  obtain ⟨m, rfl⟩ := Nat.exists_eq_add_of_le' h
  rfl

/-- Settles O46: the encodings by the two values of each, the refusal from 6 on. -/
theorem configurationRegistersHaveTheirNumbers : Obligations.ConfigurationRegistersHaveTheirNumbers := by
  intro s
  refine ⟨rfl, rfl, rfl, rfl, ?_, ?_, fun n hn => cfgRegister_of_six_le hn s⟩
  · cases h : s.cfg.coilOnMeans <;> simp [cfgRegister, h]
  · cases h : s.cfg.multiCoilMode <;> simp [cfgRegister, h]

/-- Above the eleven fixed numbers only the two ranges of 10_state.md R47 are assigned. -/
theorem statNumber_of_eleven_le {n : Nat} (h : 11 ≤ n) (nDev : Nat) :
    statNumber nDev n = if 16 ≤ n ∧ n < 16 + nDev then some (.perDevice (n - 16))
      else if 32 ≤ n ∧ n < 40 then some (.perFunction (n - 32)) else none := by
  obtain ⟨m, rfl⟩ := Nat.exists_eq_add_of_le' h
  rfl

theorem statNumber_perDevice {k nDev : Nat} (hk : k < nDev) : statNumber nDev (16 + k) = some (.perDevice k) := by
  rw [statNumber_of_eleven_le (by omega), if_pos (by omega), Nat.add_sub_cancel_left]

/-- With at most 16 devices the range of the devices ends before that of the functions. -/
theorem statNumber_perFunction {j nDev : Nat} (hn : nDev ≤ 16) (hj : j < 8) :
    statNumber nDev (32 + j) = some (.perFunction j) := by
  rw [statNumber_of_eleven_le (by omega), if_neg (by omega), if_pos (by omega), Nat.add_sub_cancel_left]

theorem statNumber_unassigned {n nDev : Nat} (h : 11 ≤ n) (h16 : n < 16 ∨ 16 + nDev ≤ n) (h32 : n < 32 ∨ 40 ≤ n) :
    statNumber nDev n = none := by
  rw [statNumber_of_eleven_le h, if_neg (by omega), if_neg (by omega)]

theorem statRegister_of_some {n : Nat} {c : Counter} (h : statNumber s.cfg.nDev n = some c) :
    statRegister n s = .ok (stat c s) := by
  simp [statRegister, h]

theorem statRegister_of_none {n : Nat} (h : statNumber s.cfg.nDev n = none) :
    statRegister n s = .error (.unassignedRegister n) := by
  simp [statRegister, h]

/-- Settles O47: the eleven fixed numbers, the two ranges and their complement. -/
theorem statisticsRegistersHaveTheirNumbers : Obligations.StatisticsRegistersHaveTheirNumbers := by
  intro s hn
  refine ⟨rfl, rfl, rfl, rfl, rfl, rfl, rfl, rfl, rfl, rfl, rfl, fun k hk => ?_, fun j hj => ?_, fun n h h16 h32 => ?_⟩
  · exact statRegister_of_some (statNumber_perDevice hk)
  · exact statRegister_of_some (statNumber_perFunction (by omega) hj)
  · exact statRegister_of_none (statNumber_unassigned h h16 h32)

end Sys2Proof.Machine
end

section
/-! PROOFS. The data model (20_memory.md): which data space a request may write, what a repeated request leaves, and
which steps change the device storage at all. -/

namespace Sys2Proof.Machine

variable {k : Nat} {i : Instr} {s t u : State}

/-! ## Who writes storage (20_memory.md R70, R74) -/

/-- What a request may write of a device, by its function: nothing, the mirror, the coils or the holding registers
(20_memory.md R70). -/
theorem device_afterRequest_cases (i : Instr) (s : State) (k : Nat) :
    device k (afterRequest i s) = device k s ∨
      (i.functionCode = 0x01#8 ∧ (device k (afterRequest i s)).coil = (device k s).coil ∧
        (device k (afterRequest i s)).hr = (device k s).hr) ∨
      (i.functionCode ∈ [0x05#8, 0x0F#8] ∧ (device k (afterRequest i s)).status = (device k s).status ∧
        (device k (afterRequest i s)).hr = (device k s).hr) ∨
      (i.functionCode ∈ [0x06#8, 0x10#8] ∧ (device k (afterRequest i s)).status = (device k s).status ∧
        (device k (afterRequest i s)).coil = (device k s).coil) := by
  by_cases hk : slotOf s.cfg i.address = some k
  · rcases afterRequest_devices i s with hdev | ⟨k', hk', heff⟩
    · exact .inl (device_congr hdev k)
    · obtain rfl : k = k' := Option.some.inj (hk.symm.trans hk')
      rcases heff with ⟨hfc, -, -, hcoil, hhr, -⟩ | ⟨hfc, -, -, hst, hhr, -⟩ | ⟨hfc, -, -, hst, hcoil, -⟩
      · exact .inr (.inl ⟨hfc, hcoil, hhr⟩)
      · exact .inr (.inr (.inl ⟨by simpa using hfc, hst, hhr⟩))
      · exact .inr (.inr (.inr ⟨by simpa using hfc, hst, hcoil⟩))
  · exact .inl (by simp [device, afterRequest_dev_of_ne i hk])

/-- Settles O35: a request writes at most the one data space its function names. -/
theorem requestsWriteOnlyTheirDataSpace : Obligations.RequestsWriteOnlyTheirDataSpace := by
  intro i s t k hexec
  obtain rfl := exec_eq_next.1 hexec
  obtain ⟨hir, hdi⟩ := afterRequest_inputSpaces i s k
  refine ⟨afterRequest_block i s, afterRequest_dev_length i s, hir, hdi, ?_⟩
  rcases device_afterRequest_cases i s k with hd | ⟨hfc, hcoil, hhr⟩ | ⟨hfc, hst, hhr⟩ | ⟨hfc, hst, hcoil⟩
  · simp [hd]
  · exact ⟨fun _ => hcoil, fun _ => hhr, fun hne => absurd hfc hne⟩
  · exact ⟨fun hne => absurd hfc hne, fun _ => hhr, fun _ => hst⟩
  · exact ⟨fun _ => hcoil, fun hne => absurd hfc hne, fun _ => hst⟩

/-- Settles O49: a step that is not Reset and changes the device table extracts a frame. -/
theorem storageChangesOnlyByRequestsOrReset : Obligations.StorageChangesOnlyByRequestsOrReset := by
  intro s t hstep hne
  by_cases hr : s.inputs.head? = some .reset
  · exact .inl hr
  · rcases step_dev hstep hr with hdev | ⟨u, i, rest, hu, hf, -⟩
    · exact absurd hdev hne
    · obtain ⟨hphase, -, hbuf, -, -, -, -, -, hturn⟩ := hu.fields
      exact .inr ⟨hphase, hturn, by rw [← hbuf, hf]; simp⟩

/-! ## Repeated requests (20_memory.md R85, 44_statistics.md R305) -/

/-- The two lock counters (44_statistics.md R304), opened first. -/
def lockCounts (s : State) : Nat × Nat := (stat .locksOpened s, stat .locksClosed s)

@[simp] theorem lockCounts_emit (o : Output) (s : State) : lockCounts (emit o s) = lockCounts s := rfl

@[simp] theorem lockCounts_record (kind : ErrKind) (raw : List Byte) (e : Option U16) (o : Option Nat) (s : State) :
    lockCounts (record kind raw e o s) = lockCounts s := rfl

@[simp] theorem lockCounts_addTo {c : Counter} (ho : Counter.locksOpened ≠ c) (hc : Counter.locksClosed ≠ c)
    (n : Nat) (s : State) : lockCounts (addTo c n s) = lockCounts s := by
  rw [lockCounts, stat_addTo_ne ho, stat_addTo_ne hc, lockCounts]

@[simp] theorem lockCounts_bump {c : Counter} (ho : Counter.locksOpened ≠ c) (hc : Counter.locksClosed ≠ c)
    (s : State) : lockCounts (bump c s) = lockCounts s :=
  lockCounts_addTo ho hc 1 s

@[simp] theorem lockCounts_send (r : List Byte) (s : State) : lockCounts (send r s) = lockCounts s := by
  simp [send]

@[simp] theorem lockCounts_takeException (a fc : Byte) (e : ExceptionCode) (s : State) :
    lockCounts (takeException a fc e s) = lockCounts s := by
  simp [takeException]

@[simp] theorem lockCounts_receiveFrame (i : Instr) (s : State) : lockCounts (receiveFrame i s) = lockCounts s := by
  simp [receiveFrame]

@[simp] theorem lockCounts_dispatched (i : Instr) (k fidx : Nat) (s : State) :
    lockCounts (dispatched i k fidx s) = lockCounts s := by
  simp [dispatched, countDispatched]

/-- `u` has the storage, the lock counters and the last output of `t`. -/
structure SameResult (t u : State) : Prop where
  dev : u.dev = t.dev
  locks : lockCounts u = lockCounts t
  last : u.outputs.getLast? = t.outputs.getLast?

namespace Reply

/-- The state a reply leaves when its rule ran from `s`. -/
def after (s : State) : Reply → State
  | .normal t _ => t
  | .exception _ => s

/-- The same answer with `u` as the state after a normal one: what a rule that changes nothing answers from `u`. -/
def withState (u : State) : Reply → Reply
  | .normal _ rbody => .normal u rbody
  | .exception e => .exception e

@[simp] theorem after_normal (s t : State) (rbody : List Byte) : (Reply.normal t rbody).after s = t := rfl
@[simp] theorem after_exception (s : State) (e : ExceptionCode) : (Reply.exception e).after s = s := rfl
@[simp] theorem withState_normal (u t : State) (rbody : List Byte) :
    (Reply.normal t rbody).withState u = .normal u rbody := rfl
@[simp] theorem withState_exception (u : State) (e : ExceptionCode) :
    (Reply.exception e).withState u = .exception e := rfl

end Reply

/-- A function rule is idempotent at slot `k`: from every state with the configuration and the storage it left, it gives
the same answer again and changes nothing (20_memory.md R85). -/
def IdempotentAt (k : Nat) (rule : Nat → State → Reply) : Prop :=
  ∀ s u : State, k < s.dev.length → u.cfg = s.cfg → u.dev = ((rule k s).after s).dev →
    rule k u = (rule k s).withState u

theorem answer_dev (i : Instr) (r : Reply) (s : State) : (answer i r s).dev = (r.after s).dev := by
  cases r <;> simp [answer]

/-- The answer given again with nothing changed has the same result. -/
theorem answer_withState (r : Reply) (ht : t = answer i r s) (hdev : u.dev = t.dev)
    (hlocks : lockCounts u = lockCounts t) : SameResult t (answer i (r.withState u) u) := by
  subst ht
  cases r <;> exact ⟨by simpa [answer] using hdev, by simpa [answer] using hlocks, by simp [answer]⟩

/-- A request whose rule is idempotent, repeated (42_dispatch.md R200). -/
theorem serve_repeated {fidx : Nat} {rule : Nat → State → Reply} (hslot : slotOf s.cfg i.address = some k)
    (hk : k < s.dev.length) (hcfg : (serve i fidx rule s).cfg = s.cfg) (h : IdempotentAt k rule) :
    SameResult (serve i fidx rule s) (serve i fidx rule (serve i fidx rule s)) := by
  have ht := serve_of_slot (fidx := fidx) (rule := rule) hslot
  rw [serve_of_slot (s := serve i fidx rule s) (by rw [hcfg]; exact hslot)]
  generalize serve i fidx rule s = t at *
  have hrule : rule k (dispatched i k fidx t) = (rule k (dispatched i k fidx s)).withState (dispatched i k fidx t) :=
    h _ _ (by rw [dispatched_dev]; exact hk) (by rw [dispatched_cfg, dispatched_cfg, hcfg])
      (by rw [dispatched_dev, ht, answer_dev])
  rw [hrule]
  exact answer_withState _ ht (dispatched_dev ..) (lockCounts_dispatched ..)

theorem coil_congr {s t : State} (h : t.dev = s.dev) (k j : Nat) : coil k j t = coil k j s := by
  simp [coil, device_congr h]

theorem holdingReg_congr {s t : State} (h : t.dev = s.dev) (k j : Nat) : holdingReg k j t = holdingReg k j s := by
  simp [holdingReg, device_congr h]

/-- A resynchronisation changes nothing where the storage is what one left (43_functions.md R241). -/
theorem resyncStatus_of_dev_eq (hk : k < s.dev.length) (h : u.dev = (resyncStatus k s).dev) : resyncStatus k u = u := by
  have hd : ∀ v : State, v.dev = u.dev → (resyncStatus k v).dev = (resyncStatus k u).dev := fun v hv => by
    simp [resyncStatus, mirrorByte, coil, device, hv]
  have hdev : (resyncStatus k u).dev = u.dev := by
    rw [← hd _ h.symm, resyncStatus_twice hk, h]
  calc resyncStatus k u = { u with dev := (resyncStatus k u).dev } := rfl
    _ = u := by rw [hdev]

theorem readCoils_idempotentAt (a : Byte) (x : ReadArgs) : IdempotentAt k (readCoils a x) := by
  intro s u hk hcfg hdev
  cases hc : checkReadCoils s.cfg x with
  | error e => simp [readCoils, hcfg, hc]
  | ok p =>
    simp only [readCoils, hcfg, hc, Reply.after_normal, Reply.withState_normal] at hdev ⊢
    rw [resyncStatus_of_dev_eq hk hdev]
    simp [statusBit, statusByte, device_congr hdev]

theorem readDiscreteInputs_idempotentAt (a : Byte) (x : ReadArgs) : IdempotentAt k (readDiscreteInputs a x) := by
  intro s u hk hcfg hdev
  cases hc : checkRead registerSpace x with
  | error e => simp [readDiscreteInputs, hc]
  | ok p =>
    simp only [readDiscreteInputs, hc, Reply.after_normal, Reply.withState_normal] at hdev ⊢
    simp [discreteInput, device_congr hdev]

theorem readHoldingRegisters_idempotentAt (a : Byte) (x : ReadArgs) : IdempotentAt k (readHoldingRegisters a x) := by
  intro s u hk hcfg hdev
  cases hc : checkReadRegisters x with
  | error e => simp [readHoldingRegisters, hc]
  | ok p =>
    simp only [readHoldingRegisters, hc, Reply.after_normal, Reply.withState_normal] at hdev ⊢
    simp [holdingReg, device_congr hdev]

theorem readInputRegisters_idempotentAt (a : Byte) (x : ReadArgs) : IdempotentAt k (readInputRegisters a x) := by
  intro s u hk hcfg hdev
  cases hc : checkReadRegisters x with
  | error e => simp [readInputRegisters, hc]
  | ok p =>
    simp only [readInputRegisters, hc, Reply.after_normal, Reply.withState_normal] at hdev ⊢
    simp [inputReg, device_congr hdev]

/-- Writing a run of coils again changes nothing. -/
theorem setCoils_of_dev_eq (hk : k < s.dev.length) {start n : Nat} (hn : start + n ≤ 48) {value : Nat → Bool}
    (h : u.dev = (setCoils k start n value s).dev) : setCoils k start n value u = u := by
  obtain ⟨-, -, hframe, hcoil, -⟩ := setCoils_spec hk hn value
  refine setCoils_same (by rw [h, hframe.1]; exact hk) hn fun j hj => ?_
  rw [coil_congr h, hcoil, if_pos (by omega), Nat.add_sub_cancel_left]

/-- Writing a run of holding registers again changes nothing. -/
theorem setHoldingRegs_of_dev_eq (hk : k < s.dev.length) {start n : Nat} (hn : start + n ≤ 256) {value : Nat → U16}
    (h : u.dev = (setHoldingRegs k start n value s).dev) : setHoldingRegs k start n value u = u := by
  obtain ⟨-, -, hframe, hreg, -⟩ := setHoldingRegs_spec hk hn value
  refine setHoldingRegs_same (by rw [h, hframe.1]; exact hk) hn fun j hj => ?_
  rw [holdingReg_congr h, hreg, if_pos (by omega), Nat.add_sub_cancel_left]

/-- One coil is a run of one. -/
theorem setCoils_one (k c : Nat) (v : Bool) (s : State) : setCoils k c 1 (fun _ => v) s = setCoil k c v s := rfl

/-- One holding register is a run of one. -/
theorem setHoldingRegs_one (k r : Nat) (v : U16) (s : State) :
    setHoldingRegs k r 1 (fun _ => v) s = setHoldingReg k r v s := rfl

theorem writeSingleCoil_idempotentAt (a : Byte) (x : WriteArgs) : IdempotentAt k (writeSingleCoil a x) := by
  intro s u hk hcfg hdev
  cases hc : checkWriteCoil x with
  | error e => simp [writeSingleCoil, hc]
  | ok p =>
    obtain ⟨c, on⟩ := p
    simp only [writeSingleCoil, hc, hcfg, Reply.after_normal, Reply.withState_normal, ← setCoils_one] at hdev ⊢
    rw [setCoils_of_dev_eq hk (checkWriteCoil_lt hc) hdev]

theorem writeSingleRegister_idempotentAt (a : Byte) (x : WriteArgs) : IdempotentAt k (writeSingleRegister a x) := by
  intro s u hk hcfg hdev
  cases hc : checkWriteRegister x with
  | error e => simp [writeSingleRegister, hc]
  | ok p =>
    obtain ⟨r, v⟩ := p
    simp only [writeSingleRegister, hc, Reply.after_normal, Reply.withState_normal, ← setHoldingRegs_one] at hdev ⊢
    rw [setHoldingRegs_of_dev_eq hk (checkWriteRegister_lt hc) hdev]

theorem writeMultipleCoils_idempotentAt (a : Byte) (x : MultiArgs) : IdempotentAt k (writeMultipleCoils a x) := by
  intro s u hk hcfg hdev
  cases hc : checkMulti coilSpace packedLength x with
  | error e => simp [writeMultipleCoils, hc]
  | ok p =>
    obtain ⟨start, n⟩ := p
    simp only [writeMultipleCoils, hc, hcfg, Reply.after_normal, Reply.withState_normal] at hdev ⊢
    rw [setCoils_of_dev_eq hk (checkMulti_le hc) hdev]

theorem writeMultipleRegisters_idempotentAt (a : Byte) (x : MultiArgs) :
    IdempotentAt k (writeMultipleRegisters a x) := by
  intro s u hk hcfg hdev
  cases hc : checkMulti registerSpace (fun count => 2 * count) x with
  | error e => simp [writeMultipleRegisters, hc]
  | ok p =>
    obtain ⟨start, n⟩ := p
    simp only [writeMultipleRegisters, hc, Reply.after_normal, Reply.withState_normal] at hdev ⊢
    rw [setHoldingRegs_of_dev_eq hk (checkMulti_le hc) hdev]

/-- An unsupported function at a device writes no storage and moves no lock counter, and its last output is its
exception response (43_functions.md R295). -/
theorem serveIllegal_result (hslot : slotOf s.cfg i.address = some k) :
    (serveIllegal i s).dev = s.dev ∧ lockCounts (serveIllegal i s) = lockCounts s ∧
      (serveIllegal i s).outputs.getLast? =
        some (.responseSent (appendCrc (exceptionBody i.address i.functionCode .illegalFunction))) := by
  simp [serveIllegal, hslot]

theorem serveIllegal_repeated (hslot : slotOf s.cfg i.address = some k) (hcfg : (serveIllegal i s).cfg = s.cfg) :
    SameResult (serveIllegal i s) (serveIllegal i (serveIllegal i s)) := by
  obtain ⟨-, -, hlast⟩ := serveIllegal_result hslot
  obtain ⟨hdev, hlocks, hlast'⟩ := serveIllegal_result (s := serveIllegal i s) (by rw [hcfg]; exact hslot)
  exact ⟨hdev, hlocks, hlast'.trans hlast.symm⟩

theorem receiveFrame_repeated (i : Instr) (s : State) :
    SameResult (receiveFrame i s) (receiveFrame i (receiveFrame i s)) :=
  ⟨rfl, lockCounts_receiveFrame .., by simp⟩

/-- A request to a device the table has, repeated: the rule of every function is idempotent. -/
theorem afterRequest_repeated (hslot : slotOf s.cfg i.address = some k) (hk : k < s.dev.length) :
    SameResult (afterRequest i s) (afterRequest i (afterRequest i s)) := by
  have hcfg := (Accounts.afterRequest i s).cfg
  cases i with
  | readCoils a x => exact serve_repeated hslot hk hcfg (readCoils_idempotentAt a x)
  | readDiscreteInputs a x => exact serve_repeated hslot hk hcfg (readDiscreteInputs_idempotentAt a x)
  | readHoldingRegisters a x => exact serve_repeated hslot hk hcfg (readHoldingRegisters_idempotentAt a x)
  | readInputRegisters a x => exact serve_repeated hslot hk hcfg (readInputRegisters_idempotentAt a x)
  | writeSingleCoil a x => exact serve_repeated hslot hk hcfg (writeSingleCoil_idempotentAt a x)
  | writeSingleRegister a x => exact serve_repeated hslot hk hcfg (writeSingleRegister_idempotentAt a x)
  | writeMultipleCoils a x => exact serve_repeated hslot hk hcfg (writeMultipleCoils_idempotentAt a x)
  | writeMultipleRegisters a x => exact serve_repeated hslot hk hcfg (writeMultipleRegisters_idempotentAt a x)
  | illegalFunction a fc p => exact serveIllegal_repeated hslot hcfg

/-- Settles O38: at a foreign address only the frame is reported again; at a device the rule is idempotent. -/
theorem repeatedRequestsAreIdempotent : Obligations.RepeatedRequestsAreIdempotent := by
  intro i s t u hlen ht hu
  obtain rfl := exec_eq_next.1 ht
  obtain rfl := exec_eq_next.1 hu
  have h : SameResult (afterRequest i s) (afterRequest i (afterRequest i s)) := by
    cases hslot : slotOf s.cfg i.address with
    | none =>
      rw [afterRequest_foreign hslot, afterRequest_foreign (s := receiveFrame i s) hslot]
      exact receiveFrame_repeated i s
    | some k => exact afterRequest_repeated hslot (hlen ▸ (slotOf_eq_some.1 hslot).2)
  obtain ⟨hdev, hlocks, hlast⟩ := h
  obtain ⟨hopened, hclosed⟩ := Prod.mk.inj hlocks
  exact ⟨hdev, hopened, hclosed, hlast⟩

end Sys2Proof.Machine
end

section
/-! PROOFS. Decoding and encoding of frames (30_encoding.md) and the search for a frame at the front of the buffer
(41_synchronizer.md R175): all go through the form of a CRC-valid frame, a body of two bytes or more with its CRC. -/

namespace Sys2Proof

/-! ## CRC-valid frames (30_encoding.md R100, R101) -/

/-- The round trip of 40_crc.md R144: appending a CRC gives a frame from two bytes on. -/
@[simp] theorem verify_appendCrc (d : List Byte) : verify (appendCrc d) = decide (2 ≤ d.length) := by
  rw [appendCrc, verify_concat]
  simp

/-- A frame is read through the function-code map (R112). -/
@[simp] theorem decode_appendCrc (a fc : Byte) (p : List Byte) :
    decode (appendCrc (a :: fc :: p)) = .ok (decodeRequest a fc p) :=
  (decode_eq_ok_iff _ _).2 ⟨by simp, a, fc, p, rfl, rfl⟩

/-- A CRC-valid sequence is a body of two bytes or more with its CRC, so it decodes (R117). -/
theorem decode_of_verify {f : List Byte} (h : verify f = true) : ∃ i, decode f = .ok i := by
  obtain ⟨d, rfl⟩ : ∃ d, f = appendCrc d := ⟨_, appendCrc_of_verify h⟩
  match d, h with
  | a :: fc :: p, _ => exact ⟨_, decode_appendCrc a fc p⟩
  | [], h | [_], h => simp at h

theorem verify_of_decode {f : List Byte} {i : Instr} (h : decode f = .ok i) : verify f = true :=
  ((decode_eq_ok_iff f i).1 h).1

/-- The two names under which a byte sequence is rejected (R117). -/
theorem decode_of_verify_false {f : List Byte} (h : verify f = false) :
    decode f = .error (if f.length < 4 then .tooShort else .crcMismatch) := by
  simp only [decode, h, Bool.false_eq_true, if_false]
  split_ifs <;> rfl

/-! ## Decoding and encoding -/

/-- Settles O4: the frame's two first bytes and its payload are the instruction's parts. -/
theorem decodeOfEncode : Obligations.DecodeOfEncode := by
  intro i hwf
  rw [encode, encodeBody, decode_appendCrc, decodeRequest_parts hwf]

/-- Settles O5: a frame that decodes is a body with its CRC, and the encoder writes that body again. -/
theorem encodeOfDecode : Obligations.EncodeOfDecode := by
  intro f i h
  obtain ⟨-, a, fc, p, rfl, rfl⟩ := (decode_eq_ok_iff f i).1 h
  obtain ⟨hwf, hbody⟩ := decodeRequest_spec a fc p
  exact ⟨hwf, by rw [encode, hbody]⟩

/-- Settles O6: by whether the sequence is CRC-valid and, where not, by its length. -/
theorem decodingIsTotalOnValidFrames : Obligations.DecodingIsTotalOnValidFrames := by
  intro f
  refine ⟨⟨fun ⟨_, h⟩ => verify_of_decode h, decode_of_verify⟩, ?_⟩
  cases hv : verify f with
  | true =>
    obtain ⟨i, hi⟩ := decode_of_verify hv
    simp [hi, length_of_verify hv]
  | false =>
    rw [decode_of_verify_false hv]
    by_cases hlen : f.length < 4
    · simp [hlen]
    · simp [hlen, not_lt.1 hlen]

/-! ## The function-code map and the formats (30_encoding.md R104-R107, R112, R114) -/

/-- The payload of an unsupported function is not decoded (R107, R114). -/
theorem decodeRequest_of_unsupported (a : Byte) {fc : Byte} (p : List Byte) (h : fc ∉ supportedFunctions) :
    decodeRequest a fc p = .illegalFunction a fc p :=
  decodeRequest_parts (i := .illegalFunction a fc p) (by simpa [Instr.wf] using h)

/-- Settles O7: the map evaluated at each of the eight function bytes, and at any other. -/
theorem functionByteSelectsTheOperation : Obligations.FunctionByteSelectsTheOperation := by
  intro a p
  simp only [decode_appendCrc, Except.ok.injEq]
  exact ⟨rfl, rfl, rfl, rfl, rfl, rfl, rfl, rfl, fun _ hfc => decodeRequest_of_unsupported a p hfc⟩

theorem decodeRead_of_length_ne {p : List Byte} (h : p.length ≠ 4) : decodeRead p = .malformed p := by
  unfold decodeRead
  split
  · simp at h
  · rfl

theorem decodeWrite_of_length_ne {p : List Byte} (h : p.length ≠ 4) : decodeWrite p = .malformed p := by
  unfold decodeWrite
  split
  · simp at h
  · rfl

theorem decodeMulti_of_length_lt {p : List Byte} (h : p.length < 5) : decodeMulti p = .malformed p := by
  unfold decodeMulti
  split
  · simp only [List.length_cons] at h
    omega
  · rfl

/-- Settles O8: the two fields are the big-endian pairs, whatever the format. -/
theorem fieldsLieWhereTheFormatsSay : Obligations.FieldsLieWhereTheFormatsSay :=
  ⟨fun x1 x0 y1 y0 => ⟨be16 x1 x0, be16 y1 y0, be16_toNat x1 x0, be16_toNat y1 y0, rfl, rfl, fun _ _ => rfl⟩,
    fun _ h => ⟨decodeRead_of_length_ne h, decodeWrite_of_length_ne h⟩, fun _ h => decodeMulti_of_length_lt h⟩

/-! ## The shortest frame at the front of the buffer (30_encoding.md R116, 41_synchronizer.md R175) -/

section

variable {buf rest : List Byte} {i : Instr} {l m : Nat}

/-- The prefix of length `l` is CRC-valid and no shorter one of 4 bytes or more is. -/
def ShortestFrame (buf : List Byte) (l : Nat) : Prop :=
  4 ≤ l ∧ l ≤ buf.length ∧ verify (buf.take l) = true ∧ ∀ m, 4 ≤ m → m < l → verify (buf.take m) = false

theorem ShortestFrame.le (hl : ShortestFrame buf l) (hm : ShortestFrame buf m) : l ≤ m := by
  obtain ⟨-, -, -, hmin⟩ := hl
  obtain ⟨h4, -, hv, -⟩ := hm
  by_contra hlt
  simp [hmin m h4 (not_le.1 hlt)] at hv

theorem ShortestFrame.unique (hl : ShortestFrame buf l) (hm : ShortestFrame buf m) : l = m :=
  le_antisymm (hl.le hm) (hm.le hl)

/-- What is fetched is the reading of a shortest frame. -/
theorem shortestFrame_of_fetch (h : fetch buf = some (i, rest)) :
    ∃ l, ShortestFrame buf l ∧ decode (buf.take l) = .ok i ∧ rest = buf.drop l := by
  obtain ⟨l, h4, hl, hmin, hd, hrest⟩ := fetch_some_spec h
  exact ⟨l, ⟨h4, hl, verify_of_decode hd, hmin⟩, hd, hrest⟩

/-- Nothing is fetched only if no prefix of 4 bytes or more is CRC-valid (R116). -/
theorem fetch_eq_none_iff (buf : List Byte) :
    fetch buf = none ↔ ∀ l, 4 ≤ l → l ≤ buf.length → verify (buf.take l) = false := by
  refine ⟨fetch_none_spec, fun hnone => ?_⟩
  match hf : fetch buf with
  | none => rfl
  | some (_, _) =>
    obtain ⟨l, ⟨h4, hl, hv, -⟩, -⟩ := shortestFrame_of_fetch hf
    simp [hnone l h4 hl] at hv

/-- A shortest frame is fetched: something is, and there is no other shortest frame. -/
theorem fetch_of_shortestFrame (h : ShortestFrame buf l) (hd : decode (buf.take l) = .ok i) :
    fetch buf = some (i, buf.drop l) := by
  match hf : fetch buf with
  | none =>
    obtain ⟨h4, hl, hv, -⟩ := h
    simp [fetch_none_spec hf l h4 hl] at hv
  | some (_, _) =>
    obtain ⟨m, hm, hdm, rfl⟩ := shortestFrame_of_fetch hf
    obtain rfl := h.unique hm
    obtain rfl := Except.ok.inj (hd.symm.trans hdm)
    rfl

end

/-- Settles O11: the length of the shortest frame is unique, and it is where the search stops. -/
theorem fetchTakesTheShortestValidFrame : Obligations.FetchTakesTheShortestValidFrame := by
  refine fun buf => ⟨fun i rest => ⟨fun h => ?_, ?_⟩, fetch_eq_none_iff buf⟩
  · obtain ⟨l, ⟨h4, hl, hv, hmin⟩, hd, hrest⟩ := shortestFrame_of_fetch h
    exact ⟨l, h4, hl, hv, hmin, hd, hrest⟩
  · rintro ⟨l, h4, hl, hv, hmin, hd, rfl⟩
    exact fetch_of_shortestFrame ⟨h4, hl, hv, hmin⟩ hd

/-! ## Sample frames (95_test_vectors.md) -/

/-- Settles O9: each frame's CRC and fields are computed by the decoder. -/
theorem sampleFramesDecode : Obligations.SampleFramesDecode := by
  refine ⟨?_, ?_, ?_, ?_, ?_, ?_, ?_, ?_, ?_⟩ <;> decide +kernel

end Sys2Proof
end

section
/-! PROOFS. The CRC engine (40_crc.md), by the residue of a frame: run over its own CRC as well, the CRC register ends at
0 exactly where the frame is CRC-valid. The register's update is injective, so no change of one byte keeps the residue. -/

namespace Sys2Proof

open Machine

/-! ## The residue of a frame -/

theorem crcShift_of_even {c : U16} (h : c.getLsbD 0 = false) : crcShift c = c >>> 1 := by
  rw [crcShift, h, if_neg Bool.false_ne_true]

/-- Where the low bits are 0 no shift meets the generator. -/
theorem iterate_crcShift_of_low_zero {n : Nat} {c : U16} (h : ∀ i < n, c.getLsbD i = false) :
    crcShift^[n] c = c >>> n := by
  induction n with
  | zero => simp
  | succ n ih =>
    have hbit : (c >>> n).getLsbD 0 = false := by simpa using h n n.lt_succ_self
    rw [Function.iterate_succ_apply', ih fun i hi => h i (hi.trans n.lt_succ_self), crcShift_of_even hbit,
      BitVec.shiftRight_add]

theorem iterate_crcShift_inj (n : Nat) {c c' : U16} : crcShift^[n] c = crcShift^[n] c' ↔ c = c' := by
  refine ⟨fun h => ?_, fun h => h ▸ rfl⟩
  have hz : crcShift^[n] (c ^^^ c') = 0#16 := by rw [iterate_crcShift_xor, h, BitVec.xor_self]
  exact BitVec.xor_eq_zero_iff.1 (iterate_crcShift_eq_zero n hz)

@[simp] theorem iterate_crcShift_zero (n : Nat) : crcShift^[n] 0#16 = 0#16 := by
  simp [iterate_crcShift_of_low_zero]

theorem getLsbD_le16 (lo hi : Byte) (i : Nat) :
    (le16 lo hi).getLsbD i = if i < 8 then lo.getLsbD i else hi.getLsbD (i - 8) := by
  rw [le16, BitVec.getLsbD_append]

/-- Eight shifts bring a high byte down to the low one. -/
theorem iterate_crcShift_highByte (b : Byte) : crcShift^[8] (le16 0#8 b) = b.zeroExtend 16 := by
  rw [iterate_crcShift_of_low_zero fun i hi => by simp [getLsbD_le16, hi]]
  apply BitVec.eq_of_getLsbD_eq
  intro i hi
  simp [getLsbD_le16, hi]

theorem le16_eq_xor (lo hi : Byte) : le16 lo hi = lo.zeroExtend 16 ^^^ le16 0#8 hi := by
  apply BitVec.eq_of_getLsbD_eq
  intro i h
  rw [BitVec.getLsbD_xor, BitVec.getLsbD_setWidth, getLsbD_le16, getLsbD_le16]
  by_cases h8 : i < 8
  · simp [h, h8]
  · simp [h8, BitVec.getLsbD_of_ge lo i (not_lt.1 h8)]

/-- Two bytes are taken in like the 16-bit value they hold, low byte first. -/
theorem crcStep_crcStep (c : U16) (lo hi : Byte) :
    crcStep (crcStep c lo) hi = crcShift^[16] (c ^^^ le16 lo hi) := by
  calc crcStep (crcStep c lo) hi
      = crcShift^[8] (crcShift^[8] (c ^^^ lo.zeroExtend 16) ^^^ crcShift^[8] (le16 0#8 hi)) := by
        rw [iterate_crcShift_highByte]; rfl
    _ = crcShift^[16] (c ^^^ le16 lo hi) := by
        rw [← iterate_crcShift_xor, ← Function.iterate_add_apply, BitVec.xor_assoc, ← le16_eq_xor]

theorem crc16_concat_eq_zero_iff (d : List Byte) (lo hi : Byte) :
    crc16 (d ++ [lo, hi]) = 0#16 ↔ le16 lo hi = crc16 d := by
  rw [crc16_append]
  simp only [List.foldl_cons, List.foldl_nil]
  rw [crcStep_crcStep, ← iterate_crcShift_zero 16, iterate_crcShift_inj, BitVec.xor_eq_zero_iff, eq_comm]

/-- A frame is CRC-valid exactly where it has 4 bytes and the residue 0. -/
theorem verify_eq_true_iff (f : List Byte) : verify f = true ↔ 4 ≤ f.length ∧ crc16 f = 0#16 := by
  by_cases hlen : 4 ≤ f.length
  · obtain ⟨d, lo, hi, rfl⟩ := exists_concat_of_length (f := f) (by omega)
    have hd : 2 ≤ d.length := by simpa using hlen
    simp [verify_concat, crc16_concat_eq_zero_iff, hd]
  · exact ⟨fun h => absurd (length_of_verify h) hlen, fun ⟨h, _⟩ => absurd h hlen⟩

/-! ## Errors within one byte -/

theorem crcStep_byte_injective {c : U16} {b b' : Byte} (h : crcStep c b = crcStep c b') : b = b' := by
  have hext : b.zeroExtend 16 = b'.zeroExtend 16 :=
    (BitVec.xor_right_inj c).1 ((iterate_crcShift_inj 8).1 h)
  simpa using congrArg (BitVec.setWidth 8) hext

theorem foldl_crcStep_injective (d : List Byte) {c c' : U16} (h : d.foldl crcStep c = d.foldl crcStep c') :
    c = c' := by
  induction d generalizing c c' with
  | nil => exact h
  | cons b d ih => exact crcStep_injective b (ih h)

/-- Two frames that differ in one byte at most and are both CRC-valid are the same. -/
theorem byte_eq_of_verify {l r : List Byte} {b b' : Byte} (h : verify (l ++ b :: r) = true)
    (h' : verify (l ++ b' :: r) = true) : b = b' := by
  obtain ⟨-, hres⟩ := (verify_eq_true_iff _).1 h
  obtain ⟨-, hres'⟩ := (verify_eq_true_iff _).1 h'
  rw [crc16_append] at hres hres'
  exact crcStep_byte_injective (foldl_crcStep_injective r (hres.trans hres'.symm))

theorem flipBit_eq_append {f : List Byte} {n : Nat} (hn : n < f.length) (bit : Nat) :
    flipBit f n bit = f.take n ++ (f[n] ^^^ (1#8 <<< bit)) :: f.drop (n + 1) := by
  rw [flipBit, List.modify_eq_take_cons_drop hn]

theorem flipped_byte_ne (x : Byte) {bit : Nat} (h : bit < 8) : x ^^^ (1#8 <<< bit) ≠ x := by
  have hmask : ∀ t < 8, 1#8 <<< t ≠ 0#8 := by decide
  simpa using hmask bit h

/-! ## The statements -/

theorem verify_of_length_lt {f : List Byte} (h : f.length < 4) : verify f = false := by
  simp [verify, h]

/-- Settles O2: the trailing bytes and the CRC are equal as 16-bit values exactly where they are equal as numbers. -/
theorem verifyComparesTheTrailingBytes : Obligations.VerifyComparesTheTrailingBytes := by
  refine ⟨fun f => verify_of_length_lt, fun d lo hi hd => ?_⟩
  rw [← le16_toNat, BitVec.toNat_inj]
  simp [verify_concat, hd]

/-- Settles O3: a frame and the frame with the bit inverted differ in one byte, so they are not both CRC-valid. -/
theorem singleBitErrorsAreDetected : Obligations.SingleBitErrorsAreDetected := by
  intro f hf n hn b hb
  by_contra hv
  rw [Bool.not_eq_false, flipBit_eq_append hn] at hv
  rw [← List.take_append_drop n f, List.drop_eq_getElem_cons hn] at hf
  exact flipped_byte_ne f[n] hb (byte_eq_of_verify hv hf)

/-- Settles O1: what is appended is the CRC, so only the length decides. -/
theorem appendedCrcVerifiesFromTwoBytesOn : Obligations.AppendedCrcVerifiesFromTwoBytesOn := by
  intro d
  rw [verify_appendCrc, decide_eq_true_iff]

end Sys2Proof
end

section
/-! PROOFS. The frame synchronizer (41_synchronizer.md): bytes and silences, the gap, the extraction of frames, and the
invariant that every step keeps. -/

namespace Sys2Proof.Machine

variable {i j : Instr} {b : Byte} {e : Nat} {q : List Input} {rest : List Byte} {s t u : State}

/-! ## The step, by the input at the head of the queue (R161, R181) -/

/-- An extraction runs the instruction that is fetched, in the state without its frame (R175). -/
theorem step_of_fetch_some (h : Extracts s u) (hf : fetch u.buf = some (i, rest)) :
    step s = exec i (dropFrame rest u) := by
  simp [step, nextMove_extracts h, extractStep, hf]

/-- An extraction that fetches nothing discards the remainder (R177). -/
theorem step_of_fetch_none (h : Extracts s u) (hf : fetch u.buf = none) : step s = .next (discardRemainder u) := by
  simp [step, nextMove_extracts h, extractStep, hf]

theorem step_rxByte (h : s.inputs = .rxByte b :: q) (hp : s.phase ≠ .extracting) :
    step s = .next (receiveByte b { s with inputs := q }) := by
  simp [step, nextMove, h, hp]

theorem step_silence (h : s.inputs = .silence e :: q) : step s = .next (silence e { s with inputs := q }) := by
  simp [step, nextMove, h]

/-- Settles O57: outside phase Extracting the input is taken off the queue. -/
theorem extractOutsideExtractingIsPassedOver : Obligations.ExtractOutsideExtractingIsPassedOver := by
  intro s q h hp
  simp [step, nextMove, h, hp]

/-! ## Received bytes (R162-R166) -/

theorem receiveByte_of_idle (h : s.phase = .idle) :
    receiveByte b s = { bump .bytesReceived s with buf := [b], phase := .receiving } := by
  simp [receiveByte, h]

theorem receiveByte_of_room (h : s.phase = .receiving) (hl : s.buf.length < maxBuf) :
    receiveByte b s = { bump .bytesReceived s with buf := s.buf ++ [b] } := by
  simp [receiveByte, h, hl]

theorem receiveByte_of_full (h : s.phase = .receiving) (hl : maxBuf ≤ s.buf.length) :
    receiveByte b s = overflow s := by
  simp [receiveByte, h, show ¬ s.buf.length < maxBuf by omega]

theorem receiveByte_of_stopped (h : s.phase = .stopped) : receiveByte b s = s := by
  simp [receiveByte, h]

/-- One received byte moves its counter (44_statistics.md R303). -/
theorem bump_bytesReceived_counts (s : State) : CountsMoved byteDelta s (bump .bytesReceived s) :=
  (CountsMoved.of_addTo (c := .bytesReceived) (n := 1) trivial (by omega)).congr fun c => by
    cases c <;> simp [byteDelta]

/-- An overflow moves the counters of its row (44_statistics.md R302). -/
theorem overflow_counts (s : State) : CountsMoved overflowDelta s (overflow s) := by
  have hbyte : CountsMoved byteDelta s { bump .bytesReceived s with buf := [], phase := .idle } :=
    (bump_bytesReceived_counts s).of_stats_congr rfl rfl rfl
  have htotal := hbyte.trans (.of_addTo (c := .totalRequests) (n := 1) trivial (by omega)) rfl
  have hinvalid := htotal.trans (.of_addTo (c := .invalidRequests) (n := 1) trivial (by omega)) rfl
  have hframing := hinvalid.trans (.of_addTo (c := .framingErrors) (n := 1) trivial (by omega)) rfl
  refine (hframing.of_stats_congr rfl rfl rfl).congr fun c => ?_
  cases c <;> simp [overflowDelta, byteDelta]

/-- Settles O13: the byte that finds phase Idle is the buffer (R162). -/
theorem byteInIdleStartsTheBuffer : Obligations.ByteInIdleStartsTheBuffer := by
  intro s b q h hp
  refine ⟨_, step_rxByte h (by simp [hp]), ?_⟩
  rw [receiveByte_of_idle (s := { s with inputs := q }) hp]
  exact ⟨rfl, rfl, (bump_bytesReceived_counts s).of_stats_congr rfl rfl rfl, rfl, rfl, rfl, rfl, rfl⟩

/-- Settles O14: below the bound there is room for the byte (R163). -/
theorem byteInReceivingIsAppended : Obligations.ByteInReceivingIsAppended := by
  intro s b q h hp hl
  refine ⟨_, step_rxByte h (by simp [hp]), ?_⟩
  rw [receiveByte_of_room (s := { s with inputs := q }) hp hl]
  exact ⟨rfl, hp, (bump_bytesReceived_counts s).of_stats_congr rfl rfl rfl, rfl, rfl, rfl, rfl, rfl⟩

/-- Settles O15: the byte that finds 4096 others is the overflow of R164. -/
theorem byteAtAFullBufferDiscardsIt : Obligations.ByteAtAFullBufferDiscardsIt := by
  intro s b q h hp hl
  refine ⟨_, step_rxByte h (by simp [hp]), ?_⟩
  rw [receiveByte_of_full (s := { s with inputs := q }) hp (by simp [hl, maxBuf])]
  exact ⟨rfl, rfl, (overflow_counts { s with inputs := q }).of_stats_congr rfl rfl rfl,
    pushRecord_eq_ringWith .., rfl, rfl, rfl, rfl⟩

/-- Settles O17: in phase Stopped a received byte is the identity (R166). -/
theorem byteWhenStoppedIsDropped : Obligations.ByteWhenStoppedIsDropped := by
  intro s b q h hp
  rw [step_rxByte h (by simp [hp]), receiveByte_of_stopped (s := { s with inputs := q }) hp]

/-! ## The inter-frame gap (R170-R172, R180) -/

theorem gapReached_iff (cfg : Cfg) (e : Nat) :
    gapReached cfg e = true ↔
      cfg.gapFloorNs ≤ e ∧ cfg.gapCharsX2 * cfg.charBits * 1000000000 ≤ 2 * e * cfg.baud := by
  simp [gapReached]

/-- The character part of the frame gap, 3.5 characters at the baud rate, compared in integers (R170). -/
theorem gapChars_le_iff (cfg : Cfg) (e : Nat) (hb : 0 < cfg.baud) :
    (cfg.gapCharsX2 : ℚ) / 2 * cfg.charBits * 1000000000 / cfg.baud ≤ e ↔
      cfg.gapCharsX2 * cfg.charBits * 1000000000 ≤ 2 * e * cfg.baud := by
  have hbaud : (0 : ℚ) < cfg.baud := by exact_mod_cast hb
  calc (cfg.gapCharsX2 : ℚ) / 2 * cfg.charBits * 1000000000 / cfg.baud ≤ e
      ↔ (cfg.gapCharsX2 : ℚ) / 2 * cfg.charBits * 1000000000 ≤ e * cfg.baud := div_le_iff₀ hbaud
    _ ↔ (cfg.gapCharsX2 * cfg.charBits * 1000000000 : ℚ) ≤ 2 * e * cfg.baud := by
        constructor <;> intro h <;> linarith
    _ ↔ cfg.gapCharsX2 * cfg.charBits * 1000000000 ≤ 2 * e * cfg.baud := by norm_cast

/-- Settles O18: the two integer comparisons are those of the two sides of the maximum. -/
theorem gapIsReachedFromTheRationalThresholdOn : Obligations.GapIsReachedFromTheRationalThresholdOn := by
  intro cfg e hb
  refine ⟨gapReached_iff cfg e, ?_⟩
  rw [gapReached_iff, max_le_iff, Nat.cast_le, gapChars_le_iff cfg e hb]

theorem silence_of_gap (hp : s.phase = .receiving) (hg : gapReached s.cfg e = true) :
    silence e s = { s with phase := .extracting } :=
  if_pos ⟨hp, hg⟩

theorem silence_of_not_gap (h : ¬ (s.phase = .receiving ∧ gapReached s.cfg e = true)) : silence e s = s :=
  if_neg h

/-- Settles O19: the one silence with an effect (R171). -/
theorem silenceOfTheGapStartsExtraction : Obligations.SilenceOfTheGapStartsExtraction := by
  intro s e q h hp hg
  rw [step_silence h, silence_of_gap (s := { s with inputs := q }) hp hg]

/-- Settles O20: every other silence is the identity (R172). -/
theorem otherSilenceHasNoEffect : Obligations.OtherSilenceHasNoEffect := by
  intro s e q h hg
  rw [step_silence h, silence_of_not_gap (s := { s with inputs := q }) hg]

/-- No byte starts an extraction. -/
theorem receiveByte_phase_ne (b : Byte) (h : s.phase ≠ .extracting) : (receiveByte b s).phase ≠ .extracting := by
  unfold receiveByte
  split
  · simp
  · split
    · exact h
    · simp
  · exact h
  · exact h

/-- Settles O21: of all the steps only a silence of the gap moves the phase to Extracting. -/
theorem extractionIsEnteredOnlyAtTheGap : Obligations.ExtractionIsEnteredOnlyAtTheGap := by
  intro s t h ht hs
  rcases step_cases h with ⟨u, hu, -⟩ | ⟨-, -, rfl⟩ | ⟨b, q, -, -, rfl⟩ | ⟨e, q, hi, rfl⟩ | ⟨q, -, -, rfl⟩ |
    ⟨q, -, rfl⟩ | ⟨q, -, rfl⟩ | ⟨q, -, rfl⟩ | ⟨q, -, -, rfl⟩
  · exact absurd hu.fields.1 hs
  · exact absurd ht hs
  · exact absurd ht (receiveByte_phase_ne b hs)
  · by_cases hg : s.phase = .receiving ∧ gapReached s.cfg e = true
    · obtain ⟨-, -, -, -, -, hbuf, -⟩ := silence_fields e { s with inputs := q }
      exact ⟨hg.1, hbuf, e, by rw [hi]; rfl, hg.2⟩
    · rw [silence_of_not_gap (s := { s with inputs := q }) hg] at ht
      exact absurd ht hs
  · exact absurd ht hs
  · exact absurd ht hs
  · exact absurd ht hs
  · cases ht
  · cases ht

/-! ## Extraction (R165, R175-R179) -/

/-- Settles O10: both forms of the extraction run the fetched instruction on what `dropFrame` leaves. -/
theorem stepRunsTheDecodedInstruction : Obligations.StepRunsTheDecodedInstruction := by
  refine ⟨fun s i rest hs hf => ?_, fun s q i rest hp hi hf => ?_⟩
  · exact step_of_fetch_some (.inl ⟨hs, rfl⟩) hf
  · exact step_of_fetch_some (.inr ⟨hp, q, hi, rfl⟩) hf

/-- The record of a remainder (44_statistics.md R314). -/
def remainderRecord (rem : List Byte) : ErrorRecord :=
  if rem.length < 4 then ⟨.framing, rem, none, none⟩
  else ⟨.crc, rem, some (crc16 (rem.take (rem.length - 2))), some (rem.length - 2)⟩

theorem discardRemainder_ring (s : State) : (discardRemainder s).ring = pushRecord s.ring (remainderRecord s.buf) := by
  unfold discardRemainder recordRemainder remainderRecord
  split <;> simp

theorem discardRemainder_outputs (s : State) :
    (discardRemainder s).outputs =
      s.outputs ++ [.frameReceived s.buf false, .errorOccurred (remainderRecord s.buf)] := by
  unfold discardRemainder recordRemainder remainderRecord
  split <;> simp

/-- Settles O12: nothing is fetched, so the block discards the remainder, in either form of the extraction. -/
theorem remainderIsDiscardedAndRecorded : Obligations.RemainderIsDiscardedAndRecorded := by
  intro s u hu hv
  obtain ⟨-, -, hbuf, hcfg, hdev, hstats, hring, hout, -⟩ := hu.fields
  obtain ⟨hb, hp, hd, hc, hi⟩ := discardRemainder_fields u
  have hf : fetch u.buf = none := (fetch_eq_none_iff u.buf).2 (by rwa [hbuf])
  refine ⟨discardRemainder u, remainderRecord s.buf, step_of_fetch_none hu hf, rfl, hb, hp, hd.trans hdev,
    hc.trans hcfg, hi, ?_, ?_, ?_⟩
  · rw [discardRemainder_ring, pushRecord_eq_ringWith, hring, hbuf]
  · rw [← hbuf]
    exact (discardRemainder_counts u).of_stats_congr hstats.symm hcfg.symm rfl
  · rw [discardRemainder_outputs, hout, hbuf]

/-- One turn of the block's own: the host's queue stays, no received byte is counted, and the block is done or goes on
extracting from a proper rest of the buffer (R165, R175, R177). -/
theorem step_ownTurn (h : OwnTurn s) :
    ∃ t, step s = .next t ∧ t.inputs = s.inputs ∧ stat .bytesReceived t = stat .bytesReceived s ∧ t.buf <:+ s.buf ∧
      (t.phase = .idle ∧ t.buf = [] ∨ t.phase = .extracting ∧ t.buf.length + 4 ≤ s.buf.length) := by
  have hu : Extracts s s := .inl ⟨h, rfl⟩
  cases hf : fetch s.buf with
  | none =>
    obtain ⟨hb, hp, -, -, hi⟩ := discardRemainder_fields s
    refine ⟨_, step_of_fetch_none hu hf, hi, discardRemainder_counts s .bytesReceived, ?_, .inl ⟨hp, hb⟩⟩
    rw [hb]; exact List.nil_suffix
  | some p =>
    obtain ⟨i, rest⟩ := p
    obtain ⟨hsuf, hlen, -⟩ := fetch_rest hf
    obtain ⟨hp, hb, -, hi⟩ := afterRequest_block i (dropFrame rest s)
    refine ⟨_, (step_of_fetch_some hu hf).trans (exec_eq ..), hi, stat_afterRequest (.inl rfl) i _, ?_, ?_⟩
    · rw [hb]; exact hsuf
    · rw [hb, hp]
      by_cases hr : rest = []
      · exact .inl ⟨by simp [hr], hr⟩
      · exact .inr ⟨by simp [hr], hlen⟩

/-- Settles O16: the byte gives the block its own turn, which leaves the queue. -/
theorem byteIsHeldWhileExtracting : Obligations.ByteIsHeldWhileExtracting := by
  intro s b q h hp
  obtain ⟨t, hstep, hi, hstat, hsuf, hend⟩ := step_ownTurn (s := s) ⟨hp, .inr ⟨b, q, h⟩⟩
  refine ⟨t, hstep, hi.trans h, hsuf, fun hne => ?_, hstat⟩
  have hpos := List.length_pos_of_ne_nil hne
  rcases hend with ⟨-, hb⟩ | ⟨-, hl⟩
  · simpa [hb] using hpos
  · omega

/-- Settles O22, by induction on a bound of the buffer: every turn that does not end the extraction takes 4 bytes or
more off the buffer. -/
theorem extractionEndsWithinItsBound : Obligations.ExtractionEndsWithinItsBound := by
  intro s hs
  induction hn : s.buf.length using Nat.strong_induction_on generalizing s with
  | _ n ih =>
    subst hn
    obtain ⟨t, hstep, hi, -, -, ⟨hp, hb⟩ | ⟨hp, hl⟩⟩ := step_ownTurn hs
    · exact ⟨1, by omega, t, run_succ hstep 0, hp, hb, hi⟩
    · have ht : OwnTurn t := ⟨hp, by rw [hi]; exact hs.2⟩
      obtain ⟨m, hm, u, hrun, hup, hub, hui⟩ := ih t.buf.length (by omega) t ht rfl
      exact ⟨m + 1, by omega, u, (run_succ hstep m).trans hrun, hup, hub, hui.trans hi⟩

/-- The block's turn at a buffer that begins with the frame of `i` (R175, R176). -/
theorem step_of_encode_append {more : List Byte} (hs : OwnTurn s) (hi : i.wf = true) (hb : s.buf = encode i ++ more)
    (hv : ∀ m, 4 ≤ m → m < (encode i).length → verify ((encode i).take m) = false) :
    step s = .next (afterRequest i (dropFrame more s)) := by
  have hf : fetch s.buf = some (i, more) := by rw [hb]; exact fetch_encode_append hi more hv
  rw [step_of_fetch_some (.inl ⟨hs, rfl⟩) hf, exec_eq]

/-- While something remains the phase is as it was. -/
theorem dropFrame_of_ne_nil (hp : s.phase = .extracting) (h : rest ≠ []) : dropFrame rest s = { s with buf := rest } := by
  simp [dropFrame, h, ← hp]

theorem encode_ne_nil (i : Instr) : encode i ≠ [] := by
  simp [encode, encodeBody, appendCrc]

/-- Settles O23: after the first request the buffer is the second frame, and the block's turn is still next. -/
theorem backToBackFramesRunInOrder : Obligations.BackToBackFramesRunInOrder := by
  intro s i j hs hi hj hb hvi hvj
  have hstep := step_of_encode_append hs hi hb hvi
  rw [dropFrame_of_ne_nil hs.1 (encode_ne_nil j)] at hstep
  obtain ⟨htp, htb, -, hti⟩ := afterRequest_block i { s with buf := encode j }
  generalize ht : afterRequest i { s with buf := encode j } = t at *
  have hown : OwnTurn t := ⟨htp.trans hs.1, by rw [hti]; exact hs.2⟩
  have hstep' := step_of_encode_append (more := []) hown hj (by simp [htb]) hvj
  obtain ⟨hup, hub, -, -⟩ := afterRequest_block j (dropFrame [] t)
  exact ⟨t, _, hstep, exec_eq_next.2 ht.symm, hstep', exec_eq .., hub, hup⟩

/-! ## The invariant -/

/-- The buffer agrees with the phase (R33, R180). -/
structure BufferOk (s : State) : Prop where
  bound : s.buf.length ≤ maxBuf
  idle : s.phase = .idle → s.buf = []
  busy : s.phase = .receiving ∨ s.phase = .extracting → s.buf ≠ []

/-- The ring holds at most 5 records, each with the content of its kind (44_statistics.md R310, R314). -/
structure RingOk (ring : List ErrorRecord) : Prop where
  bound : ring.length ≤ 5
  records : ∀ r ∈ ring, RecordOk r

theorem StateInv.bufferOk (h : StateInv s) : BufferOk s := ⟨h.bufBound, h.idleEmpty, h.busyNonempty⟩

theorem StateInv.ringOk (h : StateInv s) : RingOk s.ring := ⟨h.ringBound, h.recordsOk⟩

theorem BufferOk.congr (h : BufferOk s) (hp : t.phase = s.phase) (hb : t.buf = s.buf) : BufferOk t :=
  ⟨by rw [hb]; exact h.bound, by rw [hp, hb]; exact h.idle, by rw [hp, hb]; exact h.busy⟩

/-- The phase after an extraction is settled by what remains (R175). -/
theorem BufferOk.dropFrame (s : State) (h : rest.length ≤ maxBuf) : BufferOk (dropFrame rest s) := by
  by_cases hr : rest = []
  · exact ⟨h, fun _ => hr, fun hbusy => by simp [hr] at hbusy⟩
  · exact ⟨h, fun hidle => by simp [hr] at hidle, fun _ => hr⟩

theorem RingOk.push {ring : List ErrorRecord} {r : ErrorRecord} (h : RingOk ring) (hr : RecordOk r) :
    RingOk (pushRecord ring r) := by
  have hall : ∀ x ∈ ring ++ [r], RecordOk x := by
    simp only [List.mem_append, List.mem_singleton]
    rintro x (hx | rfl)
    · exact h.records x hx
    · exact hr
  have hbound := h.bound
  unfold pushRecord
  split
  · exact ⟨by simp; omega, fun x hx => hall x (List.mem_of_mem_drop hx)⟩
  · exact ⟨by omega, hall⟩

/-- A remainder at whose front nothing is fetched has a record of its kind (44_statistics.md R314). -/
theorem recordOk_remainder {rem : List Byte} (h : fetch rem = none) : RecordOk (remainderRecord rem) := by
  unfold remainderRecord
  split
  · exact ⟨rfl, rfl⟩
  · have hl : 4 ≤ rem.length := by omega
    exact ⟨hl, verify_of_fetch_none h hl, rfl, rfl⟩

/-- The record of an unsupported request holds its frame (44_statistics.md R314). -/
theorem recordOk_unsupported {a fc : Byte} {p : List Byte} (h : (Instr.illegalFunction a fc p).wf = true) :
    RecordOk ⟨.unsupported, encode (.illegalFunction a fc p), none, some 1⟩ := by
  obtain ⟨-, -, hv⟩ := Laws.FrameShape.of_body (.illegalFunction a fc p)
  refine ⟨hv, ?_, rfl, rfl⟩
  simpa [Instr.wf, encode, encodeBody, appendCrc, Instr.functionCode] using h

namespace StateInv

/-- What only accounts keeps the invariant, if the buffer, the ring and the input spaces are in order after it. -/
theorem of_accounts (h : StateInv s) (ha : Accounts s t) (hl : t.dev.length = s.dev.length)
    (hd : ∀ k, (device k t).ir = (device k s).ir ∧ (device k t).di = (device k s).di)
    (hb : BufferOk t) (hr : RingOk t.ring) : StateInv t := by
  have hmem : ∀ d ∈ t.dev, ∃ d' ∈ s.dev, d.ir = d'.ir ∧ d.di = d'.di := fun d hdt => by
    obtain ⟨k, hk, rfl⟩ := List.getElem_of_mem hdt
    have hks : k < s.dev.length := hl ▸ hk
    exact ⟨s.dev[k], List.getElem_mem hks, by simpa [device, hk, hks] using hd k⟩
  exact {
    cfgValid := by rw [ha.cfg]; exact h.cfgValid
    devLength := by rw [hl, ha.cfg]; exact h.devLength
    perDeviceLength := by rw [ha.slots, ha.cfg]; exact h.perDeviceLength
    bufBound := hb.bound
    idleEmpty := hb.idle
    busyNonempty := hb.busy
    ringBound := hr.bound
    recordsOk := hr.records
    countersBounded := fun c => by rw [ha.cfg]; exact (ha.counters c (h.countersBounded c)).2
    inputRegsZero := fun d hdt => by
      obtain ⟨d', hd', hir, -⟩ := hmem d hdt
      exact hir.trans (h.inputRegsZero d' hd')
    discreteInputsFalse := fun d hdt => by
      obtain ⟨d', hd', -, hdi⟩ := hmem d hdt
      exact hdi.trans (h.discreteInputsFalse d' hd') }

/-- The same where the devices are untouched. -/
theorem of_accounts_dev (h : StateInv s) (ha : Accounts s t) (hd : t.dev = s.dev) (hb : BufferOk t)
    (hr : RingOk t.ring) : StateInv t :=
  h.of_accounts ha (by rw [hd]) (fun k => by rw [device_congr hd]; exact ⟨rfl, rfl⟩) hb hr

/-- The host's queue is no part of the invariant. -/
theorem withInputs (h : StateInv s) (q : List Input) : StateInv { s with inputs := q } := { h with }

theorem of_extracts (h : StateInv s) (hu : Extracts s u) : StateInv u := by
  rcases hu with ⟨-, rfl⟩ | ⟨-, q, -, rfl⟩
  · exact h
  · exact h.withInputs q

/-- Extracting a frame and running its request (R175). -/
theorem afterRequest_dropFrame (h : StateInv s) (hf : fetch s.buf = some (i, rest)) :
    StateInv (afterRequest i (dropFrame rest s)) := by
  obtain ⟨-, hlen, hwf⟩ := fetch_rest hf
  obtain ⟨hp, hb, -, -⟩ := afterRequest_block i (dropFrame rest s)
  have hdrop : Accounts s (dropFrame rest s) := .of_eq rfl rfl rfl
  have hmax := h.bufBound
  refine h.of_accounts (hdrop.trans (.afterRequest i _)) (afterRequest_dev_length i _)
    (afterRequest_inputSpaces i (dropFrame rest s)) ((BufferOk.dropFrame s (by omega)).congr hp hb) ?_
  rcases afterRequest_ring i (dropFrame rest s) with hring | ⟨a, fc, p, rfl, hring⟩
  · rw [hring]; exact h.ringOk
  · rw [hring]; exact h.ringOk.push (recordOk_unsupported hwf)

theorem discardRemainder (h : StateInv s) (hf : fetch s.buf = none) : StateInv (discardRemainder s) := by
  obtain ⟨hb, hp, hd, -, -⟩ := discardRemainder_fields s
  refine h.of_accounts_dev (.discardRemainder s) hd ⟨by simp [hb], fun _ => hb, fun hbusy => by simp [hp] at hbusy⟩ ?_
  rw [discardRemainder_ring]
  exact h.ringOk.push (recordOk_remainder hf)

theorem overflow (h : StateInv s) : StateInv (overflow s) :=
  h.of_accounts_dev (.overflow s) rfl ⟨Nat.zero_le _, fun _ => rfl, by rintro (hp | hp) <;> cases hp⟩
    (h.ringOk.push ⟨rfl, rfl⟩)

theorem receiveByte (h : StateInv s) (b : Byte) : StateInv (receiveByte b s) := by
  have ha := Accounts.receiveByte b s
  cases hp : s.phase with
  | idle =>
    rw [receiveByte_of_idle hp] at ha ⊢
    exact h.of_accounts_dev ha rfl ⟨by simp [maxBuf], fun hi => by simp at hi, fun _ => by simp⟩ h.ringOk
  | receiving =>
    by_cases hl : s.buf.length < maxBuf
    · rw [receiveByte_of_room hp hl] at ha ⊢
      exact h.of_accounts_dev ha rfl ⟨by simpa using hl, fun hi => by simp [hp] at hi, fun _ => by simp⟩ h.ringOk
    · rw [receiveByte_of_full hp (by omega)]
      exact h.overflow
  | extracting => simpa [Machine.receiveByte, hp] using h
  | stopped => rw [receiveByte_of_stopped hp]; exact h

theorem silence (h : StateInv s) (e : Nat) : StateInv (silence e s) := by
  by_cases hg : s.phase = .receiving ∧ gapReached s.cfg e = true
  · rw [silence_of_gap hg.1 hg.2]
    exact { h with idleEmpty := fun hi => by simp at hi, busyNonempty := fun _ => h.busyNonempty (.inl hg.1) }
  · rw [silence_of_not_gap hg]; exact h

theorem clearStats (h : StateInv s) : StateInv (clearStats s) :=
  { h with
    perDeviceLength := by simpa [Stats.zero] using h.perDeviceLength
    ringBound := Nat.zero_le _
    recordsOk := fun r hr => by cases hr
    countersBounded := fun c => by simp [stat, get_zero] }

theorem snapshot (h : StateInv s) : StateInv (snapshot s) := { h with }

theorem stop (h : StateInv s) : StateInv (stop s) :=
  { h with
    idleEmpty := fun hi => by simp at hi
    busyNonempty := fun hi => by simp at hi }

end StateInv

/-- Settles O55: one lemma for each thing a step can do. -/
theorem stepKeepsTheInvariant : Obligations.StepKeepsTheInvariant := by
  intro s t h hstep
  rcases step_cases hstep with ⟨u, hu, hx⟩ | ⟨-, -, rfl⟩ | ⟨b, q, -, -, rfl⟩ | ⟨e, q, -, rfl⟩ | ⟨q, -, -, rfl⟩ |
    ⟨q, -, rfl⟩ | ⟨q, -, rfl⟩ | ⟨q, -, rfl⟩ | ⟨q, -, hc, rfl⟩
  · have hinv := h.of_extracts hu
    rcases hx with ⟨i, rest, hf, rfl⟩ | ⟨hf, rfl⟩
    · exact hinv.afterRequest_dropFrame hf
    · exact hinv.discardRemainder hf
  · exact h
  · exact (h.withInputs q).receiveByte b
  · exact (h.withInputs q).silence e
  · exact h.withInputs q
  · exact (h.withInputs q).clearStats
  · exact (h.withInputs q).snapshot
  · exact (h.withInputs q).stop
  · exact { stateInv_resetWith hc with }

end Sys2Proof.Machine
end

section
/-! PROOFS. The dispatcher (42_dispatch.md): the silence at a foreign address, and the form of every response. -/

namespace Sys2Proof.Machine

variable {i : Instr} {k : Nat} {s t u : State} {rbody : List Byte} {middle : List Output}

/-! ## A foreign address (R201) -/

theorem receiveFrame_foreignDelta (i : Instr) (s : State) : CountsMoved foreignDelta s (receiveFrame i s) :=
  (receiveFrame_counts i s).congr fun c => by cases c <;> rfl

/-- Settles O24: a request that names no slot is only reported and counted. -/
theorem foreignAddressIsSilent : Obligations.ForeignAddressIsSilent := by
  intro i s h
  have hforeign : afterRequest i s = receiveFrame i s := afterRequest_foreign (slotOf_eq_none.2 h)
  exact ⟨receiveFrame i s, hforeign ▸ exec_eq i s, ⟨rfl, rfl, rfl, rfl⟩, rfl, rfl, receiveFrame_foreignDelta i s, rfl⟩

/-! ## The outputs of an answered request (R222) -/

/-- An output of a request between its frame and its response: a lock change (43_functions.md R265) or an error record
(43_functions.md R295). -/
def RuleOutput (o : Output) : Prop :=
  (∃ d n c, o = .lockStateChanged d n c) ∨ ∃ r, o = .errorOccurred r

/-- One coil written puts out nothing, or its change; in any state, where `setCoil_spec` asks for a slot it has. -/
theorem setCoil_outputs (k c : Nat) (v : Bool) (s : State) :
    ∃ m, (setCoil k c v s).outputs = s.outputs ++ m ∧ ∀ o ∈ m, RuleOutput o := by
  by_cases h : coil k c s = v
  · exact ⟨[], by simp [setCoil, h], by simp⟩
  · exact ⟨[.lockStateChanged (s.cfg.baseAddr + k) c v], by simp [setCoil, h],
      fun o ho => .inl ⟨_, _, _, List.mem_singleton.1 ho⟩⟩

theorem setCoils_outputs (k start n : Nat) (value : Nat → Bool) (s : State) :
    ∃ m, (setCoils k start n value s).outputs = s.outputs ++ m ∧ ∀ o ∈ m, RuleOutput o := by
  induction n with
  | zero => exact ⟨[], by simp [setCoils], by simp⟩
  | succ n ih =>
    obtain ⟨m, hm, hrun⟩ := ih
    obtain ⟨m', hm', hlast⟩ := setCoil_outputs k (start + n) (value n) (setCoils k start n value s)
    refine ⟨m ++ m', by rw [setCoils_succ, hm', hm, List.append_assoc], fun o ho => ?_⟩
    exact (List.mem_append.1 ho).elim (hrun o) (hlast o)

@[simp] theorem setHoldingRegs_outputs (k start n : Nat) (value : Nat → U16) (s : State) :
    (setHoldingRegs k start n value s).outputs = s.outputs := by
  induction n with
  | zero => rfl
  | succ n ih => rw [setHoldingRegs_succ, setHoldingReg_outputs, ih]

/-- Whatever stands between the frame and the response, sending the response answers the request. -/
theorem answered_of_send (ht : t = send (appendCrc rbody) u)
    (hu : u.outputs = s.outputs ++ [.frameReceived (encode i) true] ++ middle) : Answered i middle rbody s t := by
  rw [ht, Answered, send_outputs, hu]

/-! ## The form of a response (R120, R210-R212) -/

/-- A response body of request `i`, normal or exception: its function byte may carry bit 7. -/
structure ResponseBody (i : Instr) (rbody : List Byte) : Prop where
  address : rbody.getD 0 0#8 = i.address
  function : rbody.getD 1 0#8 = i.functionCode ∨ rbody.getD 1 0#8 = i.functionCode ||| 0x80#8
  least : 3 ≤ rbody.length
  most : rbody.length ≤ 254

theorem ReplyBody.responseBody (h : ReplyBody i rbody) : ResponseBody i rbody :=
  ⟨h.address, .inl h.function, h.least, h.most⟩

theorem responseBody_exceptionBody (i : Instr) (e : ExceptionCode) :
    ResponseBody i (exceptionBody i.address i.functionCode e) :=
  ⟨rfl, .inr rfl, by simp [exceptionBody], by simp [exceptionBody]⟩

/-- Whatever a request did at its device, it ended with one response. -/
theorem Effect.answered (h : Effect i k s t) :
    ∃ middle rbody, Answered i middle rbody s t ∧ ResponseBody i rbody ∧ ∀ o ∈ middle, RuleOutput o := by
  cases h with
  | exception fidx e hf ht =>
    exact ⟨[], _, answered_of_send ht (by simp), responseBody_exceptionBody i e, by simp⟩
  | readCoils rbody hr hc ht => exact ⟨[], rbody, answered_of_send ht (by simp), hr.responseBody, by simp⟩
  | read fidx rbody hf hr ht => exact ⟨[], rbody, answered_of_send ht (by simp), hr.responseBody, by simp⟩
  | coils fidx start n value rbody hf hr hc hn ht =>
    obtain ⟨m, hm, hlocks⟩ := setCoils_outputs k start n value (dispatched i k fidx s)
    exact ⟨m, rbody, answered_of_send ht hm, hr.responseBody, hlocks⟩
  | regs fidx start n value rbody hf hr hc hn ht =>
    exact ⟨[], rbody, answered_of_send ht (by simp), hr.responseBody, by simp⟩
  | illegal a fc p hi ht =>
    subst hi
    exact ⟨[_], _, answered_of_send ht rfl, responseBody_exceptionBody (.illegalFunction a fc p) .illegalFunction,
      fun o ho => .inr ⟨_, List.mem_singleton.1 ho⟩⟩

/-- Settles O25: every effect of a request ends with a response body of 3 to 254 bytes, and its CRC adds two. -/
theorem everyResponseFitsTheWireFormat : Obligations.EveryResponseFitsTheWireFormat := by
  intro i s t k hslot hexec
  obtain rfl := exec_eq_next.1 hexec
  obtain ⟨middle, rbody, hanswered, ⟨haddress, hfunction, hleast, hmost⟩, hmiddle⟩ :=
    (afterRequest_effect hslot).answered
  refine ⟨middle, rbody, hanswered, ?_, ?_, ?_, haddress, hfunction, hmiddle⟩
  · simpa using hleast
  · simpa using hmost
  · simpa using (by omega : 2 ≤ rbody.length)

end Sys2Proof.Machine
end

section
/-! PROOFS. The function rules (43_functions.md): every operand form of the nine functions at a device of the block, its
exceptions, its response and its frame. A supported function answers as its operand check says; that is stated once per
function (`readCoils_completes` and its like), and the check's chain of conditions (Laws/Checks) gives the clauses. -/

namespace Sys2Proof.Machine

variable {a : Byte} {i : Instr} {k fidx start n : Nat} {s u : State} {e : ExceptionCode} {rbody : List Byte}
  {rule : Nat → State → Reply}

/-! ## A request answered as its check says (42_dispatch.md R200, R206) -/

/-- The request completes as its operand check says: with the check's exception, or in a state that `done` describes. -/
def CompletesAs {α : Type} (i : Instr) (k fidx : Nat) (s : State) (check : Except ExceptionCode α)
    (done : α → State → Prop) : Prop :=
  match check with
  | .error e => Excepts i k fidx (exceptionByte e) s
  | .ok x => ∃ t, exec i s = .next t ∧ done x t

theorem Names.dev (h : Names s a k) : k < s.dev.length := h.2.2.1

theorem Names.perDevice (h : Names s a k) : k < s.stats.perDevice.length := h.2.2.2

theorem BlockUnchanged.cfg (h : BlockUnchanged s u) : u.cfg = s.cfg := h.2.2.1

theorem BlockUnchanged.send (h : BlockUnchanged s u) (r : List Byte) : BlockUnchanged s (send r u) := by
  simpa [BlockUnchanged] using h

theorem BlockUnchanged.dispatched (i : Instr) (k fidx : Nat) (s : State) : BlockUnchanged s (dispatched i k fidx s) := by
  simp [BlockUnchanged, Machine.dispatched]

/-- A rule that answers an exception (60_exceptions.md R345). -/
theorem excepts_of_rule (hn : Names s i.address k) (hf : fidx < 8) (hserve : afterRequest i s = serve i fidx rule s)
    (hr : rule k (dispatched i k fidx s) = .exception e) : Excepts i k fidx (exceptionByte e) s := by
  refine ⟨_, exec_eq i s, ?_⟩
  rw [hserve, serve_of_slot hn.slot, hr]
  exact took_exception e hn.perDevice hf

/-- A rule that answers normally (42_dispatch.md R210). -/
theorem exec_of_rule (hn : Names s i.address k) (hserve : afterRequest i s = serve i fidx rule s)
    (hr : rule k (dispatched i k fidx s) = .normal u rbody) : exec i s = .next (send (appendCrc rbody) u) := by
  rw [exec_eq, hserve, serve_of_slot hn.slot, hr]
  rfl

/-- The response of a rule that neither counts nor emits anything of its own. -/
theorem send_answered_quietly (hn : Names s i.address k) (hf : fidx < 8) (hcfg : u.cfg = s.cfg)
    (hstats : u.stats = (dispatched i k fidx s).stats) (hout : u.outputs = (dispatched i k fidx s).outputs) :
    CountsMoved (requestDelta k fidx (rbody.length + 2) 0 0) s (send (appendCrc rbody) u) ∧
      Answered i [] rbody s (send (appendCrc rbody) u) :=
  send_answered hn.perDevice hf hcfg (.of_stats_eq hstats (by simp)) (by rw [hout, List.append_nil])

/-! ## The reads (R240-R257) -/

/-- A bit read's response (30_encoding.md R108, R242): the packed run after its byte count. -/
theorem answeredBits_send (hn : Names s i.address k) (hf : fidx < 8) (value : Nat → Bool) (hb : BlockUnchanged s u)
    (hring : u.ring = s.ring) (hstats : u.stats = (dispatched i k fidx s).stats)
    (hout : u.outputs = (dispatched i k fidx s).outputs) :
    AnsweredBits i k fidx n value s
      (send (appendCrc (bitReply i.address i.functionCode ((List.range n).map value))) u) := by
  have hlen : (packBits ((List.range n).map value)).length = packedLength n := by simp
  obtain ⟨hcounts, hanswered⟩ := send_answered_quietly
    (rbody := bitReply i.address i.functionCode ((List.range n).map value)) hn hf hb.cfg hstats hout
  refine ⟨packBits ((List.range n).map value), hlen, fun j => ?_, hb.send _, by simpa using hring, ?_, ?_⟩
  · rw [← getD_map_range, ← unpackBit_packBits]; rfl
  · simpa [bitReply] using hcounts
  · simpa [bitReply] using hanswered

/-- A register read's response (30_encoding.md R109), which changes nothing but the counters and the outputs. -/
theorem answeredRegs_send (hn : Names s i.address k) (hf : fidx < 8) (value : Nat → U16) :
    AnsweredRegs i k fidx n value s
      (send (appendCrc (registerReply i.address i.functionCode ((List.range n).map value)))
        (dispatched i k fidx s)) := by
  obtain ⟨hcounts, hanswered⟩ := send_answered_quietly
    (rbody := registerReply i.address i.functionCode ((List.range n).map value)) hn hf (dispatched_cfg ..) rfl rfl
  refine ⟨packRegs ((List.range n).map value), by simp, fun j hj => ?_,
    (BlockUnchanged.dispatched ..).send _, by simp, by simp, ?_, ?_⟩
  · obtain ⟨hhi, hlo⟩ := packRegs_getD value hj
    rw [hhi, hlo]
    exact ⟨hiByte_toNat _, loByte_toNat _⟩
  · simpa [registerReply] using hcounts
  · simpa [registerReply] using hanswered

/-- The run of coils read off the mirror just resynchronised (R241). -/
theorem map_statusBit_resyncStatus (hk : k < s.dev.length) (h : start + n ≤ 48) :
    (List.range n).map (fun j => statusBit k (start + j) (resyncStatus k s)) =
      (List.range n).map fun j => coil k (start + j) s :=
  List.map_congr_left fun j hj => statusBit_resyncStatus hk (by rw [List.mem_range] at hj; omega)

/-- Read Coils answers from the mirror, which is resynchronised first, so from the coils (R240, R241). -/
theorem readCoils_completes (hn : Names s a k) (x : ReadArgs) :
    CompletesAs (.readCoils a x) k 0 s (checkReadCoils s.cfg x) fun p t =>
      AnsweredBits (.readCoils a x) k 0 p.2 (fun j => coil k (p.1 + j) s) s t ∧ OnlyMirrorOf k s t ∧
        ∀ j < 48, (statusByte k (j / 8) t).getLsbD (j % 8) = coil k j s := by
  cases hc : checkReadCoils s.cfg x with
  | error e => exact excepts_of_rule (rule := readCoils a x) hn (by omega) rfl (by simp [readCoils, hc])
  | ok p =>
    obtain ⟨start, n⟩ := p
    refine ⟨_, exec_of_rule (rule := readCoils a x) hn rfl (by simp only [readCoils, dispatched_cfg, hc]; rfl),
      ?_, (OnlyMirrorOf.resyncStatus k (dispatched (.readCoils a x) k 0 s)).congr rfl rfl, fun j hj => ?_⟩
    · rw [map_statusBit_resyncStatus (s := dispatched (.readCoils a x) k 0 s) hn.dev (checkReadCoils_le hc)]
      simp only [coil_congr (dispatched_dev (.readCoils a x) k 0 s)]
      exact answeredBits_send (i := .readCoils a x) hn (by omega) _ (by simp [BlockUnchanged, dispatched]) rfl rfl rfl
    · exact statusBit_resyncStatus (s := dispatched (.readCoils a x) k 0 s) hn.dev hj

/-- Settles O26: the conditions of Read Coils' check, in both modes. -/
theorem readCoilsAnswers : Obligations.ReadCoilsAnswers := by
  intro s a k hn
  refine ⟨fun p => readCoils_completes hn (.malformed p), fun start count => ?_⟩
  have h := readCoils_completes hn (.fields start count)
  rw [checkReadCoils_fields] at h
  refine ⟨fun h0 hm => ?_, fun h0 hm hs => ?_, fun h0 hm hs => ?_, fun h0 hr => ?_, fun h0 hr => ?_⟩
  · rwa [if_pos h0, if_neg (by simp [hm])] at h
  · rwa [if_pos h0, if_pos hm, if_pos hs] at h
  · rwa [if_pos h0, if_pos hm, if_neg (Nat.not_le.2 hs)] at h
  · rwa [if_neg h0, if_pos hr] at h
  · rwa [if_neg h0, if_neg (Nat.not_lt.2 hr)] at h

/-- Read Discrete Inputs answers the run of inputs and writes nothing (R250). -/
theorem readDiscreteInputs_completes (hn : Names s a k) (x : ReadArgs) :
    CompletesAs (.readDiscreteInputs a x) k 1 s (checkRead registerSpace x) fun p t =>
      t.dev = s.dev ∧ AnsweredBits (.readDiscreteInputs a x) k 1 p.2 (fun j => discreteInput k (p.1 + j) s) s t := by
  cases hc : checkRead registerSpace x with
  | error e =>
    exact excepts_of_rule (rule := readDiscreteInputs a x) hn (by omega) rfl (by simp [readDiscreteInputs, hc])
  | ok p =>
    refine ⟨_, exec_of_rule (rule := readDiscreteInputs a x) hn rfl (by simp only [readDiscreteInputs, hc]; rfl),
      by simp, ?_⟩
    exact answeredBits_send (i := .readDiscreteInputs a x) hn (by omega) _ (.dispatched ..) rfl rfl rfl

/-- Settles O27: the conditions of format RD's check over 256 inputs. -/
theorem readDiscreteInputsAnswers : Obligations.ReadDiscreteInputsAnswers := by
  intro s a k hn
  refine ⟨fun p => readDiscreteInputs_completes hn (.malformed p), fun start count => ?_⟩
  have h := readDiscreteInputs_completes hn (.fields start count)
  rw [checkRead_fields, registerSpace] at h
  refine ⟨fun h0 => ?_, fun h0 hr => ?_, fun h0 hr => ?_⟩
  · rwa [if_pos h0] at h
  · rwa [if_neg h0, if_pos hr] at h
  · rwa [if_neg h0, if_neg (Nat.not_lt.2 hr)] at h

/-- Read Holding Registers answers the run of holding registers (R254). -/
theorem readHoldingRegisters_completes (hn : Names s a k) (x : ReadArgs) :
    CompletesAs (.readHoldingRegisters a x) k 2 s (checkReadRegisters x) fun p t =>
      AnsweredRegs (.readHoldingRegisters a x) k 2 p.2 (fun j => holdingReg k (p.1 + j) s) s t := by
  cases hc : checkReadRegisters x with
  | error e =>
    exact excepts_of_rule (rule := readHoldingRegisters a x) hn (by omega) rfl (by simp [readHoldingRegisters, hc])
  | ok p =>
    exact ⟨_, exec_of_rule (rule := readHoldingRegisters a x) hn rfl (by simp only [readHoldingRegisters, hc]; rfl),
      answeredRegs_send (i := .readHoldingRegisters a x) hn (by omega) _⟩

/-- Read Input Registers answers the run of input registers (R257). -/
theorem readInputRegisters_completes (hn : Names s a k) (x : ReadArgs) :
    CompletesAs (.readInputRegisters a x) k 3 s (checkReadRegisters x) fun p t =>
      AnsweredRegs (.readInputRegisters a x) k 3 p.2 (fun j => inputReg k (p.1 + j) s) s t := by
  cases hc : checkReadRegisters x with
  | error e =>
    exact excepts_of_rule (rule := readInputRegisters a x) hn (by omega) rfl (by simp [readInputRegisters, hc])
  | ok p =>
    exact ⟨_, exec_of_rule (rule := readInputRegisters a x) hn rfl (by simp only [readInputRegisters, hc]; rfl),
      answeredRegs_send (i := .readInputRegisters a x) hn (by omega) _⟩

/-- The clauses of the register reads' check (R254, R206): count, range, then encodability. -/
theorem CompletesAs.readRegisters_clauses {start count : U16} {done : Nat × Nat → State → Prop}
    (h : CompletesAs i k fidx s (checkReadRegisters (.fields start count)) done) :
    (count.toNat = 0 → Excepts i k fidx 0x03 s) ∧
      (count.toNat ≠ 0 → 256 < start.toNat + count.toNat → Excepts i k fidx 0x02 s) ∧
      (125 < count.toNat → start.toNat + count.toNat ≤ 256 → Excepts i k fidx 0x04 s) ∧
      (count.toNat ≠ 0 → count.toNat ≤ 125 → start.toNat + count.toNat ≤ 256 →
        ∃ t, exec i s = .next t ∧ done (start.toNat, count.toNat) t) := by
  rw [checkReadRegisters_fields] at h
  refine ⟨fun h0 => ?_, fun h0 hr => ?_, fun hm hr => ?_, fun h0 hm hr => ?_⟩
  · rwa [if_pos h0] at h
  · rwa [if_neg h0, if_pos hr] at h
  · rwa [if_neg (by omega), if_neg (Nat.not_lt.2 hr), if_pos hm] at h
  · rwa [if_neg h0, if_neg (Nat.not_lt.2 hr), if_neg (Nat.not_lt.2 hm)] at h

/-- Settles O28: the register reads' clauses, over the holding registers. -/
theorem readHoldingRegistersAnswers : Obligations.ReadHoldingRegistersAnswers := fun _ _ _ hn =>
  ⟨fun p => readHoldingRegisters_completes hn (.malformed p),
    fun start count => (readHoldingRegisters_completes hn (.fields start count)).readRegisters_clauses⟩

/-- Settles O29: the register reads' clauses, over the input registers. -/
theorem readInputRegistersAnswers : Obligations.ReadInputRegistersAnswers := fun _ _ _ hn =>
  ⟨fun p => readInputRegisters_completes hn (.malformed p),
    fun start count => (readInputRegisters_completes hn (.fields start count)).readRegisters_clauses⟩

/-! ## The writes (R260-R290) -/

/-- A request sees the coils its rule sees: dispatching it writes none. -/
theorem changedCoils_dispatched (i : Instr) (k fidx start n : Nat) (value : Nat → Bool) (s : State) :
    changedCoils k start n value (dispatched i k fidx s) = changedCoils k start n value s := by
  simp only [changedCoils, coil_congr (dispatched_dev i k fidx s)]

/-- A run of coils written and answered (R265, R280). -/
theorem wroteCoils_send (hn : Names s i.address k) (hf : fidx < 8) (h : start + n ≤ 48) (value : Nat → Bool)
    (rbody : List Byte) :
    WroteCoils i k fidx start n value rbody s
      (send (appendCrc rbody) (setCoils k start n value (dispatched i k fidx s))) := by
  obtain ⟨hblock, hring, honly, hcells, hcounts, -, hout⟩ :=
    setCoils_spec (s := dispatched i k fidx s) hn.dev h value
  rw [changedCoils_dispatched] at hcounts hout
  generalize setCoils k start n value (dispatched i k fidx s) = t at *
  obtain ⟨hmoved, hanswered⟩ := send_answered (rbody := rbody) hn.perDevice hf hblock.cfg hcounts hout
  exact ⟨((BlockUnchanged.dispatched ..).trans hblock).send _, by simpa using hring, honly.congr rfl (send_dev t _),
    fun j _ => by rw [coil_congr (send_dev t _), hcells, coil_congr (dispatched_dev ..)], hmoved, hanswered⟩

/-- A run of holding registers written and answered (R290). -/
theorem wroteRegs_send (hn : Names s i.address k) (hf : fidx < 8) (h : start + n ≤ 256) (value : Nat → U16)
    (rbody : List Byte) :
    WroteRegs i k fidx start n value rbody s
      (send (appendCrc rbody) (setHoldingRegs k start n value (dispatched i k fidx s))) := by
  obtain ⟨hblock, hring, honly, hcells, hstats, hout⟩ :=
    setHoldingRegs_spec (s := dispatched i k fidx s) hn.dev h value
  generalize setHoldingRegs k start n value (dispatched i k fidx s) = t at *
  obtain ⟨hmoved, hanswered⟩ := send_answered_quietly (rbody := rbody) hn hf hblock.cfg hstats hout
  exact ⟨((BlockUnchanged.dispatched ..).trans hblock).send _, by simpa using hring, honly.congr rfl (send_dev t _),
    fun j _ => by rw [holdingReg_congr (send_dev t _), hcells, holdingReg_congr (dispatched_dev ..)], hmoved, hanswered⟩

/-- Write Single Coil writes a run of one coil (R260). -/
theorem writeSingleCoil_completes (hn : Names s a k) (x : WriteArgs) :
    CompletesAs (.writeSingleCoil a x) k 4 s (checkWriteCoil x) fun p t =>
      WroteCoils (.writeSingleCoil a x) k 4 p.1 1 (fun _ => closedForOn s.cfg p.2)
        (encodeBody (.writeSingleCoil a x)) s t := by
  cases hc : checkWriteCoil x with
  | error e =>
    exact excepts_of_rule (rule := writeSingleCoil a x) hn (by omega) rfl (by simp [writeSingleCoil, hc])
  | ok p =>
    refine ⟨_, exec_of_rule (rule := writeSingleCoil a x) hn rfl (by simp only [writeSingleCoil, hc]; rfl), ?_⟩
    exact wroteCoils_send (i := .writeSingleCoil a x) hn (by omega) (checkWriteCoil_lt hc) _ _

/-- The polarity of a single coil's value (R262), for the two values R260 lets through. -/
theorem closedForOn_value (cfg : Cfg) {value : U16} (h : value = 0x0000 ∨ value = 0xFF00) :
    closedForOn cfg (value == 0xFF00#16) =
      if cfg.coilOnMeans = .opens then decide (value = 0x0000) else decide (value = 0xFF00) := by
  rcases h with rfl | rfl <;> cases hm : cfg.coilOnMeans <;> simp [closedForOn, hm]

/-- Settles O30: the conditions of Write Single Coil's check, value before address. -/
theorem writeSingleCoilWritesAndEchoes : Obligations.WriteSingleCoilWritesAndEchoes := by
  intro s a k hn
  refine ⟨fun p => writeSingleCoil_completes hn (.malformed p), fun addr value => ?_⟩
  have h := writeSingleCoil_completes hn (.fields addr value)
  rw [checkWriteCoil_fields] at h
  have hvalid (hv : value = 0x0000 ∨ value = 0xFF00) : ¬ (value ≠ 0x0000#16 ∧ value ≠ 0xFF00#16) :=
    fun ⟨h0, h1⟩ => hv.elim h0 h1
  refine ⟨fun h0 h1 => ?_, fun hv ha => ?_, fun hv ha => ?_⟩
  · rwa [if_pos ⟨h0, h1⟩] at h
  · rwa [if_neg (hvalid hv), if_pos ha] at h
  · rw [if_neg (hvalid hv), if_neg (Nat.not_le.2 ha)] at h
    simpa only [CompletesAs, closedForOn_value s.cfg hv] using h

/-- Write Single Register writes a run of one holding register (R270). -/
theorem writeSingleRegister_completes (hn : Names s a k) (x : WriteArgs) :
    CompletesAs (.writeSingleRegister a x) k 5 s (checkWriteRegister x) fun p t =>
      WroteRegs (.writeSingleRegister a x) k 5 p.1 1 (fun _ => p.2) (encodeBody (.writeSingleRegister a x)) s t := by
  cases hc : checkWriteRegister x with
  | error e =>
    exact excepts_of_rule (rule := writeSingleRegister a x) hn (by omega) rfl (by simp [writeSingleRegister, hc])
  | ok p =>
    refine ⟨_, exec_of_rule (rule := writeSingleRegister a x) hn rfl (by simp only [writeSingleRegister, hc]; rfl), ?_⟩
    exact wroteRegs_send (i := .writeSingleRegister a x) hn (by omega) (checkWriteRegister_lt hc) _ _

/-- Settles O31: the conditions of Write Single Register's check. -/
theorem writeSingleRegisterWritesAndEchoes : Obligations.WriteSingleRegisterWritesAndEchoes := by
  intro s a k hn
  refine ⟨fun p => writeSingleRegister_completes hn (.malformed p), fun addr value => ?_⟩
  have h := writeSingleRegister_completes hn (.fields addr value)
  rw [checkWriteRegister_fields] at h
  refine ⟨fun ha => ?_, fun ha => ?_⟩
  · rwa [if_pos ha] at h
  · rwa [if_neg (Nat.not_le.2 ha)] at h

/-- Write Multiple Coils writes its run, whatever the number of value bytes: a missing one reads 0 (R280, log 14). -/
theorem writeMultipleCoils_completes (hn : Names s a k) (x : MultiArgs) :
    CompletesAs (.writeMultipleCoils a x) k 6 s (checkMulti coilSpace packedLength x) fun p t =>
      WroteCoils (.writeMultipleCoils a x) k 6 p.1 p.2 (fun j => coilForBit s.cfg (unpackBit (multiValues x) j))
        ((encodeBody (.writeMultipleCoils a x)).take 6) s t := by
  cases hc : checkMulti coilSpace packedLength x with
  | error e =>
    exact excepts_of_rule (rule := writeMultipleCoils a x) hn (by omega) rfl (by simp [writeMultipleCoils, hc])
  | ok p =>
    refine ⟨_, exec_of_rule (rule := writeMultipleCoils a x) hn rfl (by simp only [writeMultipleCoils, hc]; rfl), ?_⟩
    exact wroteCoils_send (i := .writeMultipleCoils a x) hn (by omega) (checkMulti_le hc) _ _

/-- Write Multiple Registers writes its run, whatever the number of value bytes: a missing one reads 0 (R290, log 14). -/
theorem writeMultipleRegisters_completes (hn : Names s a k) (x : MultiArgs) :
    CompletesAs (.writeMultipleRegisters a x) k 7 s (checkMulti registerSpace (fun count => 2 * count) x) fun p t =>
      WroteRegs (.writeMultipleRegisters a x) k 7 p.1 p.2 (valueRegister (multiValues x))
        ((encodeBody (.writeMultipleRegisters a x)).take 6) s t := by
  cases hc : checkMulti registerSpace (fun count => 2 * count) x with
  | error e =>
    exact excepts_of_rule (rule := writeMultipleRegisters a x) hn (by omega) rfl
      (by simp [writeMultipleRegisters, hc])
  | ok p =>
    refine ⟨_, exec_of_rule (rule := writeMultipleRegisters a x) hn rfl
      (by simp only [writeMultipleRegisters, hc]; rfl), ?_⟩
    exact wroteRegs_send (i := .writeMultipleRegisters a x) hn (by omega) (checkMulti_le hc) _ _

/-- The clauses of format WM's check (R280, R290, R206): zero count, byte count, then range. -/
theorem CompletesAs.multi_clauses {space : Nat} {need : Nat → Nat} {start count : U16} {bc : Byte}
    {values : List Byte} {done : Nat × Nat → State → Prop}
    (h : CompletesAs i k fidx s (checkMulti space need (.fields start count bc values)) done) :
    (count.toNat = 0 → Excepts i k fidx 0x03 s) ∧
      (count.toNat ≠ 0 → bc.toNat ≠ need count.toNat → Excepts i k fidx 0x03 s) ∧
      (count.toNat ≠ 0 → bc.toNat = need count.toNat → space < start.toNat + count.toNat →
        Excepts i k fidx 0x02 s) ∧
      (count.toNat ≠ 0 → bc.toNat = need count.toNat → start.toNat + count.toNat ≤ space →
        ∃ t, exec i s = .next t ∧ done (start.toNat, count.toNat) t) := by
  rw [checkMulti_fields] at h
  refine ⟨fun h0 => ?_, fun h0 hb => ?_, fun h0 hb hr => ?_, fun h0 hb hr => ?_⟩
  · rwa [if_pos h0] at h
  · rwa [if_neg h0, if_pos hb] at h
  · rwa [if_neg h0, if_neg (not_not.2 hb), if_pos hr] at h
  · rwa [if_neg h0, if_neg (not_not.2 hb), if_neg (Nat.not_lt.2 hr)] at h

/-- The polarity of a request bit (R282). -/
theorem coilForBit_eq (cfg : Cfg) (bit : Bool) :
    coilForBit cfg bit =
      if cfg.multiCoilMode = .direct then bit else if cfg.coilOnMeans = .opens then !bit else bit := by
  cases hm : cfg.multiCoilMode <;> cases ho : cfg.coilOnMeans <;> simp [coilForBit, closedForOn, hm, ho]

/-- Settles O32: format WM's clauses over 48 coils, with the polarity of a request bit. -/
theorem writeMultipleCoilsWritesTheRun : Obligations.WriteMultipleCoilsWritesTheRun := by
  intro s a k hn
  refine ⟨fun p => writeMultipleCoils_completes hn (.malformed p), fun start count bc values => ?_⟩
  have h := writeMultipleCoils_completes hn (.fields start count bc values)
  simp only [coilForBit_eq] at h
  exact h.multi_clauses

/-- Settles O33: format WM's clauses over 256 holding registers. -/
theorem writeMultipleRegistersWritesTheRun : Obligations.WriteMultipleRegistersWritesTheRun := fun _ _ _ hn =>
  ⟨fun p => writeMultipleRegisters_completes hn (.malformed p), fun start count bc values =>
    (writeMultipleRegisters_completes hn (.fields start count bc values)).multi_clauses⟩

/-! ## Illegal functions (R295) -/

/-- The state after an unsupported request is counted and before it is recorded (42_dispatch.md R200). -/
def countUnsupported (i : Instr) (s : State) : State :=
  bump .invalidRequests (bump .unsupportedFunctions (receiveFrame i s))

theorem serveIllegal_of_slot (h : slotOf s.cfg i.address = some k) :
    serveIllegal i s = takeException i.address i.functionCode .illegalFunction
      (record .unsupported (encode i) none (some 1) (countUnsupported i s)) := by
  simp [serveIllegal, h, countUnsupported]

theorem countUnsupported_counts (i : Instr) (s : State) :
    CountsMoved (fun c => (if c = .totalRequests then 1 else 0) + (if c = .unsupportedFunctions then 1 else 0) +
      (if c = .invalidRequests then 1 else 0)) s (countUnsupported i s) :=
  ((receiveFrame_counts i s).trans
    (.of_addTo (s := receiveFrame i s) (c := .unsupportedFunctions) trivial (by omega)) rfl).trans
      (.of_addTo (s := bump .unsupportedFunctions (receiveFrame i s)) (c := .invalidRequests) trivial (by omega)) rfl

/-- The third row of 44_statistics.md R302. -/
theorem serveIllegal_counts (h : slotOf s.cfg i.address = some k) : CountsMoved illegalDelta s (serveIllegal i s) := by
  have hsend := send_counts (appendCrc (exceptionBody i.address i.functionCode .illegalFunction))
    (record .unsupported (encode i) none (some 1) (countUnsupported i s)) (by simp)
  rw [serveIllegal_of_slot h]
  refine ((countUnsupported_counts i s).trans (hsend.of_stats_congr rfl rfl rfl) rfl).congr fun c => ?_
  cases c <;> simp [illegalDelta, exceptionBody]

/-- Settles O34: counted, recorded, and answered with exception 0x01. -/
theorem illegalFunctionIsRecordedAndAnswered : Obligations.IllegalFunctionIsRecordedAndAnswered := by
  intro s a fc p k hn
  have hslot : slotOf s.cfg (Instr.illegalFunction a fc p).address = some k := hn.slot
  have heq := serveIllegal_of_slot hslot
  refine ⟨serveIllegal (.illegalFunction a fc p) s, exec_eq _ s, ?_, ?_, ?_, serveIllegal_counts hslot, ?_⟩
  · simp [heq, BlockUnchanged, countUnsupported]
  · simp [heq, countUnsupported]
  · simp [heq, countUnsupported, pushRecord_eq_ringWith, encode, encodeBody, Instr.address, Instr.functionCode,
      Instr.payload]
  · exact answered_of_send heq rfl

end Sys2Proof.Machine
end

section
/-! PROOFS. The statistics (44_statistics.md): what ClearStats and Snapshot do to them, and that no step takes back a
count or an output. -/

namespace Sys2Proof.Machine

variable {s t : State} {q : List Input}

/-! ## The host's commands as steps, in every phase (41_synchronizer.md R161) -/

theorem step_clearStats (h : s.inputs = .clearStats :: q) : step s = .next (clearStats { s with inputs := q }) := by
  simp [step, nextMove, h]

theorem step_snapshot (h : s.inputs = .snapshot :: q) : step s = .next (snapshot { s with inputs := q }) := by
  simp [step, nextMove, h]

theorem step_reset (h : s.inputs = .reset :: q) : step s = resetBlock { s with inputs := q } := by
  simp [step, nextMove, h]

/-- A reset hands nothing out and takes nothing back (70_reset_and_hazards.md R380; log 4). -/
theorem resetBlock_outputs (h : resetBlock s = .next t) : t.outputs = s.outputs := by
  unfold resetBlock at h
  split at h
  · cases h; rfl
  · cases h

/-! ## Clearing and reporting (R330, R331) -/

theorem stat_clearStats (c : Counter) (s : State) : stat c (clearStats s) = 0 := get_zero c _

/-- Settles O39: the counters are those of `Stats.zero`, with as many device slots as before. -/
theorem clearStatsZeroesTheCountersAndTheRing : Obligations.ClearStatsZeroesTheCountersAndTheRing := by
  intro s q h
  have hslots : (clearStats { s with inputs := q }).stats.perDevice.length = s.stats.perDevice.length := by
    simp [Stats.zero]
  exact ⟨_, step_clearStats h, fun c => stat_clearStats c _, hslots, rfl, rfl, rfl, rfl, rfl, rfl, rfl⟩

/-- Settles O40: in every phase the input is taken, and `snapshot` only emits. -/
theorem snapshotEmitsTheStatistics : Obligations.SnapshotEmitsTheStatistics := by
  intro s q h
  rw [step_snapshot h]
  rfl

/-! ## What no step takes back (R301, R320) -/

/-- Settles O51: such a step only accounts, and the invariant keeps the counter within the bound at which it saturates. -/
theorem countersNeverDecrease : Obligations.CountersNeverDecrease := by
  intro s t c hinv h hclear hreset
  have hacc : Accounts s t := .step h hclear hreset
  exact (hacc.counters c (hinv.countersBounded c)).1

/-- Settles O52: ClearStats and Reset leave the outputs as they are, and every other step only accounts. -/
theorem outputsAreOnlyAppended : Obligations.OutputsAreOnlyAppended := by
  intro s t h
  by_cases hclear : s.inputs.head? = some .clearStats
  · obtain ⟨q, hq⟩ := List.head?_eq_some_iff.1 hclear
    rw [step_clearStats hq] at h
    cases h
    exact List.prefix_rfl
  · by_cases hreset : s.inputs.head? = some .reset
    · obtain ⟨q, hq⟩ := List.head?_eq_some_iff.1 hreset
      rw [step_reset hq] at h
      rw [resetBlock_outputs h]
    · exact (Accounts.step h hclear hreset).outputs

end Sys2Proof.Machine
end

section
/-! PROOFS. What can stop the block (60_exceptions.md): Stop and the phase it leads to, and that from the invariant every
step, and so every run, goes on. -/

namespace Sys2Proof.Machine

variable {q : List Input} {s u : State}

/-! ## The steps that only wait, stop or extract (41_synchronizer.md R161, R175) -/

theorem step_of_no_input (h : s.inputs = []) (hp : s.phase ≠ .extracting) : step s = .next s := by
  simp [step, nextMove, h, hp]

theorem step_stop (h : s.inputs = .stop :: q) : step s = .next (stop { s with inputs := q }) := by
  simp [step, nextMove, h]

theorem step_of_extracts (h : Extracts s u) : step s = extractStep u := by
  simp [step, nextMove_extracts h]

/-! ## Stop and phase Stopped (R361, R362) -/

/-- Settles O41: in every phase the input is taken, and `stop` writes only the phase. -/
theorem stopChangesThePhaseAlone : Obligations.StopChangesThePhaseAlone :=
  fun _ _ h => step_stop h

/-- In phase Stopped every input but ClearStats, Snapshot and Reset is taken off the queue without effect, and with
none the block waits (R362; log 2). -/
theorem step_stopped_without_effect (hp : s.phase = .stopped) (hreset : s.inputs.head? ≠ some .reset)
    (hclear : s.inputs.head? ≠ some .clearStats) (hsnapshot : s.inputs.head? ≠ some .snapshot) :
    step s = .next { s with inputs := s.inputs.tail } := by
  have hne : s.phase ≠ .extracting := by simp [hp]
  cases hi : s.inputs with
  | nil => rw [step_of_no_input hi hne, List.tail_nil, ← hi]
  | cons x q =>
    cases x with
    | rxByte b => exact byteWhenStoppedIsDropped s b q hi hp
    | silence e => exact otherSilenceHasNoEffect s e q hi (by simp [hp])
    | extract => exact extractOutsideExtractingIsPassedOver s q hi hne
    | stop => rw [step_stop hi, stop, List.tail_cons, ← hp]
    | clearStats => simp [hi] at hclear
    | snapshot => simp [hi] at hsnapshot
    | reset => simp [hi] at hreset

/-- Settles O42: ClearStats and Snapshot have their effect, every other input has none. -/
theorem onlyResetLeavesStopped : Obligations.OnlyResetLeavesStopped := by
  intro s hp hreset
  by_cases hclear : s.inputs.head? = some .clearStats
  · obtain ⟨q, hq⟩ := List.head?_eq_some_iff.1 hclear
    refine ⟨_, step_clearStats hq, hp, rfl, rfl, rfl, by rw [hq]; rfl, fun _ => ⟨fun c => stat_clearStats c _, rfl⟩,
      fun h => absurd hclear h, fun h => ?_, fun _ => rfl⟩
    simp [hclear] at h
  · by_cases hsnapshot : s.inputs.head? = some .snapshot
    · obtain ⟨q, hq⟩ := List.head?_eq_some_iff.1 hsnapshot
      exact ⟨_, step_snapshot hq, hp, rfl, rfl, rfl, by rw [hq]; rfl, fun h => absurd h hclear, fun _ => ⟨rfl, rfl⟩,
        fun _ => rfl, fun h => absurd hsnapshot h⟩
    · exact ⟨_, step_stopped_without_effect hp hreset hclear hsnapshot, hp, rfl, rfl, rfl, rfl,
        fun h => absurd h hclear, fun _ => ⟨rfl, rfl⟩, fun h => absurd h hsnapshot, fun _ => rfl⟩

/-! ## Nothing stops the block (R344) -/

/-- An extraction finds a request, whose processing always answers a next state, or discards the remainder. -/
theorem extractStep_progress (u : State) : ∃ t, extractStep u = .next t := by
  cases hf : fetch u.buf with
  | none => exact ⟨_, extractStep_eq_next.2 (.inr ⟨hf, rfl⟩)⟩
  | some p => exact ⟨_, extractStep_eq_next.2 (.inl ⟨p.1, p.2, hf, rfl⟩)⟩

theorem step_progress_of_extracts (h : Extracts s u) : ∃ t, step s = .next t := by
  rw [step_of_extracts h]
  exact extractStep_progress u

/-- Only a Reset with an invalid configuration is refused (70_reset_and_hazards.md R382). -/
theorem step_progress (hc : s.cfg.Valid) : ∃ t, step s = .next t := by
  cases hi : s.inputs with
  | nil =>
    by_cases hp : s.phase = .extracting
    · exact step_progress_of_extracts (.inl ⟨⟨hp, .inl hi⟩, rfl⟩)
    · exact ⟨_, step_of_no_input hi hp⟩
  | cons x q =>
    cases x with
    | rxByte b =>
      by_cases hp : s.phase = .extracting
      · exact step_progress_of_extracts (.inl ⟨⟨hp, .inr ⟨b, q, hi⟩⟩, rfl⟩)
      · exact ⟨_, step_rxByte hi hp⟩
    | extract =>
      by_cases hp : s.phase = .extracting
      · exact step_progress_of_extracts (.inr ⟨hp, q, hi, rfl⟩)
      · exact ⟨_, extractOutsideExtractingIsPassedOver s q hi hp⟩
    | silence e => exact ⟨_, step_silence hi⟩
    | clearStats => exact ⟨_, step_clearStats hi⟩
    | snapshot => exact ⟨_, step_snapshot hi⟩
    | stop => exact ⟨_, step_stop hi⟩
    | reset => exact ⟨_, (step_reset hi).trans (if_pos hc)⟩

/-- On any machine: where a predicate gives every step a next state that meets it again, it gives every run one. -/
theorem core_run_progress (M : Host.Core) {P : M.State → Prop} (hP : ∀ s, P s → ∃ t, M.step s = .next t ∧ P t)
    (n : Nat) {s : M.State} (h : P s) : ∃ t, M.run n s = .next t ∧ P t := by
  induction n generalizing s with
  | zero => exact ⟨s, rfl, h⟩
  | succ n ih =>
    obtain ⟨t, hstep, ht⟩ := hP s h
    rw [core_run_succ M hstep]
    exact ih ht

/-- Settles O56: the invariant makes the configuration valid, so every step goes on, and every step keeps it. -/
theorem nothingStopsTheBlock : Obligations.NothingStopsTheBlock := by
  intro s n h
  refine core_run_progress core (P := StateInv) (fun s hs => ?_) n h
  obtain ⟨t, hstep⟩ := step_progress hs.cfgValid
  exact ⟨t, hstep, stepKeepsTheInvariant s t hs hstep⟩

end Sys2Proof.Machine
end

section
/-! PROOFS. Reset and waiting (70_reset_and_hazards.md): what the input Reset does under a valid and under an invalid
configuration, and that the block waits when nothing is offered and nothing is to be extracted. -/

namespace Sys2Proof.Machine

variable {s : State} {q : List Input}

/-! ## Reset (R380, R382) -/

theorem step_reset_of_valid (h : s.inputs = .reset :: q) (hc : s.cfg.Valid) :
    step s = .next { State.resetWith s.cfg with inputs := q, outputs := s.outputs } :=
  (step_reset h).trans (if_pos hc)

theorem step_reset_of_not_valid (h : s.inputs = .reset :: q) (hc : ¬ s.cfg.Valid) :
    step s = .refused .invalidConfiguration :=
  (step_reset h).trans (if_neg hc)

/-- The four ways to break the constraints on a configuration (00_scope.md R9, R10, R11). -/
theorem not_cfg_valid_iff (c : Cfg) :
    ¬ c.Valid ↔ c.baud = 0 ∨ c.nDev = 0 ∨ 10 < c.nDev ∨ 255 < c.baseAddr + c.nDev - 1 := by
  unfold Cfg.Valid
  omega

/-- Settles O43: the next state is that of `State.resetWith` but for the host's two lists, which no cell and no counter
reads. -/
theorem resetGivesEveryPieceItsResetValue : Obligations.ResetGivesEveryPieceItsResetValue := by
  intro s q h hc
  have hdevices : (State.resetWith s.cfg).dev.length = s.cfg.nDev := List.length_replicate
  have hcounters : (State.resetWith s.cfg).stats.perDevice.length = s.cfg.nDev := List.length_replicate
  exact ⟨_, step_reset_of_valid h hc, rfl, rfl, rfl, rfl, hdevices, hcounters, stat_resetWith s.cfg,
    fun k _ => cells_of_device_reset (device_resetWith s.cfg k), rfl, rfl⟩

/-- Settles O44: each of the four clauses makes the configuration invalid, and then the check of Reset fails. -/
theorem resetRefusesAnInvalidConfiguration : Obligations.ResetRefusesAnInvalidConfiguration :=
  fun s _ h hbroken => step_reset_of_not_valid h ((not_cfg_valid_iff s.cfg).2 hbroken)

/-! ## Waiting (R381) -/

/-- Settles O53: it is the step with no input, for every state outside phase Extracting. -/
theorem blockWaitsForInput : Obligations.BlockWaitsForInput :=
  fun _ => step_of_no_input

end Sys2Proof.Machine
end
